-- ==== Sys2Proof/Word.lean ====
section
/-! DEFINITION. The octet, the octet string and the 32-bit register word of HFC (00_scope R13, R14, R16). -/

namespace Sys2Proof

/-- An unsigned 8-bit value (R14). Bit 7 is the most significant (R15). -/
abbrev Byte := BitVec 8

/-- A finite sequence of octets, indexed from 0 (R14). -/
abbrev Bytes := List Byte

/-- The width of MAXF, CMAX and MTS (R13). -/
abbrev Word := BitVec 32

end Sys2Proof
end

