-- ==== Sys2Proof/Syntax.lean ====
section
/-! DEFINITION. The thirteen rows of spec/opcode_table.json as one inductive, and the places a unit can be read in. -/

namespace Sys2Proof

/-- One constructor per row of the opcode table; its arguments are the row's variable bits (30_encoding R71, R73, R79,
R80). What follows a first byte in the fragment (continuation bytes, string literals) are units of their own. -/
inductive Instr where
  /-- `IDX`, `1iiiiiii`: prefix of the index, 127 when continuation bytes follow (R74). -/
  | idx (i : BitVec 7)
  /-- `LINC.N`, `01000000` (R75). -/
  | lincN
  /-- `LINC.I`, `01iiiiii`, prefix nonzero (R75). -/
  | lincI (i : BitVec 6)
  /-- `LNOIDX.N`, `00000000` (R76). -/
  | lnoidxN
  /-- `LNOIDX.I`, `0000iiii`, prefix nonzero (R76). -/
  | lnoidxI (i : BitVec 4)
  /-- `LNEVER.N`, `00010000` (R77). -/
  | lneverN
  /-- `LNEVER.I`, `0001iiii`, prefix nonzero (R77). -/
  | lneverI (i : BitVec 4)
  /-- `DTSU`, `001sssss`: prefix of the new size (R78). -/
  | dtsu (s : BitVec 5)
  /-- `STR.RAW`, `0LLLLLLL`: prefix of the length of a raw string (R80). -/
  | strRaw (l : BitVec 7)
  /-- `STR.HUF`, `1LLLLLLL`: prefix of the coded length of a Huffman string (R80). -/
  | strHuf (l : BitVec 7)
  /-- `INT.CONT`, `1ggggggg`: a continuation byte with another to follow (R79). -/
  | intCont (g : BitVec 7)
  /-- `INT.LAST`, `0ggggggg`: the last continuation byte (R79). -/
  | intLast (g : BitVec 7)
  /-- `FRAME_HDR`, 72 bits: length, type, flags, the reserved bit, stream id (R71). -/
  | frameHdr (length : BitVec 24) (type flags : BitVec 8) (r : Bool) (streamId : BitVec 31)
  deriving DecidableEq, Repr

/-- The three places of a fragment a first byte can be read in: at the start of a representation (R141), at the start
of a string literal (R124), inside a prefixed integer (R122). -/
inductive Ctx where
  | rep
  | str
  | int
  deriving DecidableEq, Repr

/-- Where a unit is read: a frame header at the front of IB, or an octet of FRAG. -/
inductive Slot where
  | frame
  | octet (c : Ctx)
  deriving DecidableEq, Repr

/-- The place a row of the table is read in. -/
def Instr.slot : Instr → Slot
  | .idx _ => .octet .rep
  | .lincN => .octet .rep
  | .lincI _ => .octet .rep
  | .lnoidxN => .octet .rep
  | .lnoidxI _ => .octet .rep
  | .lneverN => .octet .rep
  | .lneverI _ => .octet .rep
  | .dtsu _ => .octet .rep
  | .strRaw _ => .octet .str
  | .strHuf _ => .octet .str
  | .intCont _ => .octet .int
  | .intLast _ => .octet .int
  | .frameHdr _ _ _ _ _ => .frame

end Sys2Proof
end

