-- ==== Sys2Proof/WellFormed.lean ====
section
/-! DEFINITION. The well-formed instructions: the indexed literal forms have a nonzero prefix, because the byte with
prefix zero is the other form (30_encoding R75, R76, R77, and the table's "constraint"). Field widths are in the types. -/

namespace Sys2Proof

/-- The constraint of the rows `LINC.I`, `LNOIDX.I`, `LNEVER.I`; every other row has none. -/
def Instr.wf : Instr → Bool
  | .idx _ => true
  | .lincN => true
  | .lincI i => i != 0
  | .lnoidxN => true
  | .lnoidxI i => i != 0
  | .lneverN => true
  | .lneverI i => i != 0
  | .dtsu _ => true
  | .strRaw _ => true
  | .strHuf _ => true
  | .intCont _ => true
  | .intLast _ => true
  | .frameHdr _ _ _ _ _ => true

end Sys2Proof
end

