-- ==== Sys2Proof/Decode.lean ====
section
/-! DEFINITION. The decoder and the encoder of the opcode table (30_encoding R71 to R82), and the decoder over the
table's own bit numbering. -/

namespace Sys2Proof

/-- Why bytes give no unit. Both are safe: the block waits or raises `H_TRUNC` where the spec says so. -/
inductive DecodeError where
  /-- Fewer than 9 bytes for a frame header (R58). -/
  | headerShort
  /-- No byte where an octet of the fragment is read (R120). -/
  | noByte
  deriving DecidableEq, Repr

/-- The dispatch on a representation's first byte (R73, R141), forms by R82. -/
def decodeRep (b : Byte) : Instr :=
  if b.extractLsb' 7 1 = 1#1 then .idx (b.extractLsb' 0 7)
  else if b.extractLsb' 6 2 = 0b01#2 then
    if b.extractLsb' 0 6 = 0#6 then .lincN else .lincI (b.extractLsb' 0 6)
  else if b.extractLsb' 4 4 = 0b0000#4 then
    if b.extractLsb' 0 4 = 0#4 then .lnoidxN else .lnoidxI (b.extractLsb' 0 4)
  else if b.extractLsb' 4 4 = 0b0001#4 then
    if b.extractLsb' 0 4 = 0#4 then .lneverN else .lneverI (b.extractLsb' 0 4)
  else .dtsu (b.extractLsb' 0 5)

/-- The first byte of a string literal (R80): bit 7 is the Huffman flag. -/
def decodeStr (b : Byte) : Instr :=
  if b.extractLsb' 7 1 = 1#1 then .strHuf (b.extractLsb' 0 7) else .strRaw (b.extractLsb' 0 7)

/-- A continuation byte (R79): bit 7 says whether another follows. -/
def decodeCont (b : Byte) : Instr :=
  if b.extractLsb' 7 1 = 1#1 then .intCont (b.extractLsb' 0 7) else .intLast (b.extractLsb' 0 7)

/-- The unit an octet of the fragment is, by where it is read. Total: every byte is some row in each place. -/
def decodeOctet : Ctx → Byte → Instr
  | .rep, b => decodeRep b
  | .str, b => decodeStr b
  | .int, b => decodeCont b

/-- The nine header bytes in buffer order, big-endian fields, the reserved bit apart (R54, R71). -/
def decodeHeader (h0 h1 h2 h3 h4 h5 h6 h7 h8 : Byte) : Instr :=
  .frameHdr (h0 ++ h1 ++ h2) h3 h4 (h5.getLsbD 7) (h5.extractLsb' 0 7 ++ h6 ++ h7 ++ h8)

/-- The decoder: a unit and the bytes after it, or why there is none. Total on any bytes in any place. -/
def decode : Slot → Bytes → Except DecodeError (Instr × Bytes)
  | .frame, h0 :: h1 :: h2 :: h3 :: h4 :: h5 :: h6 :: h7 :: h8 :: rest =>
    .ok (decodeHeader h0 h1 h2 h3 h4 h5 h6 h7 h8, rest)
  | .frame, _ => .error .headerShort
  | .octet c, b :: rest => .ok (decodeOctet c b, rest)
  | .octet _, [] => .error .noByte

/-- The nine bytes of a header, reserved bit as given (R71). -/
def headerBytes (length : BitVec 24) (type flags : BitVec 8) (r : Bool) (streamId : BitVec 31) : Bytes :=
  [length.extractLsb' 16 8, length.extractLsb' 8 8, length.extractLsb' 0 8, type, flags,
   BitVec.ofBool r ++ streamId.extractLsb' 24 7, streamId.extractLsb' 16 8, streamId.extractLsb' 8 8,
   streamId.extractLsb' 0 8]

/-- The encoder: the bytes of one row of the table (R71, R73 to R80). -/
def encode : Instr → Bytes
  | .idx i => [1#1 ++ i]
  | .lincN => [0b01000000#8]
  | .lincI i => [0b01#2 ++ i]
  | .lnoidxN => [0b00000000#8]
  | .lnoidxI i => [0b0000#4 ++ i]
  | .lneverN => [0b00010000#8]
  | .lneverI i => [0b0001#4 ++ i]
  | .dtsu s => [0b001#3 ++ s]
  | .strRaw l => [0#1 ++ l]
  | .strHuf l => [1#1 ++ l]
  | .intCont g => [1#1 ++ g]
  | .intLast g => [0#1 ++ g]
  | .frameHdr length type flags r streamId => headerBytes length type flags r streamId

/-- The bytes of a word of the opcode table. A one-byte row is the byte. The 72-bit row is ONE word whose bit 71 is bit
7 of the first byte in buffer order, as the table numbers its fields (length 71:48 is bytes 0 to 2). -/
def tableBytes (nbits w : Nat) : Bytes :=
  if nbits = 72 then
    [BitVec.ofNat 8 (w >>> 64), BitVec.ofNat 8 (w >>> 56), BitVec.ofNat 8 (w >>> 48), BitVec.ofNat 8 (w >>> 40),
     BitVec.ofNat 8 (w >>> 32), BitVec.ofNat 8 (w >>> 24), BitVec.ofNat 8 (w >>> 16), BitVec.ofNat 8 (w >>> 8),
     BitVec.ofNat 8 w]
  else if nbits = 8 then [BitVec.ofNat 8 w]
  else []

/-- Where a table word is read when nothing else says so: 72 bits are a frame header, 8 bits the first byte of a
representation. (A byte of the rows `STR.RAW`, `STR.HUF`, `INT.CONT`, `INT.LAST` is told from a representation's first
byte only by where the pass stands, which a bare word does not say; log 11.) -/
def tableSlot (nbits : Nat) : Slot :=
  if nbits = 72 then .frame else .octet .rep

/-- The instruction the decoder reads from a table word. -/
def decodeTableWord (nbits w : Nat) : Option Instr :=
  match decode (tableSlot nbits) (tableBytes nbits w) with
  | .ok (i, _) => some i
  | .error _ => none

end Sys2Proof
end

