-- ==== Sys2Proof/Config.lean ====
section
/-! DEFINITION. The constants of 00_scope R8 and the parameters of R6, R7, R9, R10, R12 as plain data. -/

namespace Sys2Proof

/-- `INT_MAX` of R8: the largest value of a prefixed integer. -/
def Config.intMax : Nat := 2 ^ 32 - 1

/-- `STATIC_COUNT` of R8. -/
def Config.staticCount : Nat := 61

/-- `ENTRY_OVERHEAD` of R8. -/
def Config.entryOverhead : Nat := 32

/-- `FRAME_HEADER_LEN` of R8. -/
def Config.frameHeaderLen : Nat := 9

/-- FREE VALUE. A Huffman decoder of which only totality and statelessness are known (R9, R170); `none` is `Err`. -/
opaque Config.huffExternal : Bytes → Option Bytes

/-- FREE VALUE. A text check of which only totality is known (R10). -/
opaque Config.textOkExternal : Bytes → Bool

/-- Which function is plugged into the parameter `HUFF` (R9, D9). -/
inductive HuffSel where
  /-- The standard instantiation of 44_huffman R172, R173. -/
  | standard
  /-- The free function `Config.huffExternal`. -/
  | external
  deriving DecidableEq, Repr

/-- Which function is plugged into the parameter `TextOk` (R10, D10). -/
inductive TextSel where
  /-- The default: every octet string is accepted. -/
  | acceptAll
  /-- Strings that hold one of these octets are rejected (95_test_vectors 4.2 uses one such). -/
  | rejecting (octets : Bytes)
  /-- The free function `Config.textOkExternal`. -/
  | external
  deriving DecidableEq, Repr

/-- The parameters of an instance, fixed for its life (10_state R39). -/
structure Params where
  /-- `MAXF_RESET` (R6). -/
  maxfReset : Word
  /-- `CMAX_RESET` (R7). -/
  cmaxReset : Word
  /-- `IB_CAP` (R12); `none` is unbounded. -/
  ibCap : Option Nat
  /-- `HUFF` (R9). -/
  huff : HuffSel
  /-- `TextOk` (R10). -/
  textOk : TextSel
  deriving DecidableEq, Repr

/-- The spec's defaults: R6, R7, R12, R9 with R172, R10. -/
def Params.default : Params where
  maxfReset := 16384#32
  cmaxReset := 4096#32
  ibCap := none
  huff := .standard
  textOk := .acceptAll

end Sys2Proof
end

