-- ==== Sys2Proof/Machine/State.lean ====
section
/-! DEFINITION. The state of one HFC instance as plain data (10_state R20 to R40), the reasons a step can stop, reset. -/

namespace Sys2Proof.Machine

/-- `FrameHeader` (10_state R23). -/
structure FrameHeader where
  length : BitVec 24
  type : BitVec 8
  flags : BitVec 8
  streamId : BitVec 31
  failure : Bool
  deriving DecidableEq, Repr

/-- `PHASE` (10_state R22): `FH` awaits a frame header, `FB` a frame body. -/
inductive Phase where
  | fh
  | fb
  deriving DecidableEq, Repr

/-- `Header` (00_scope R14): a decoded field, value present. -/
structure Header where
  name : Bytes
  value : Bytes
  deriving DecidableEq, Repr

/-- `Entry` (00_scope R14): a table row, value possibly absent. -/
structure Entry where
  name : Bytes
  value : Option Bytes
  deriving DecidableEq, Repr

/-- The cause labels of 60_exceptions R201. -/
inductive Cause where
  | fRsvd
  | fOversize
  | hTrunc
  | hIntOverflow
  | hIndexZero
  | hIndexRange
  | hNoValue
  | hSizeLate
  | hSizeExceeds
  | hHuffman
  | hText
  deriving DecidableEq, Repr

/-- The number of a cause in the table of R201 (an enumeration, not a wire code: R215). -/
def Cause.number : Cause → Nat
  | .fRsvd => 1
  | .fOversize => 2
  | .hTrunc => 3
  | .hIntOverflow => 4
  | .hIndexZero => 5
  | .hIndexRange => 6
  | .hNoValue => 7
  | .hSizeLate => 8
  | .hSizeExceeds => 9
  | .hHuffman => 10
  | .hText => 11

/-- An element of `OUT` (10_state R34). -/
inductive Item where
  | ok (h : Header)
  | err (c : Cause)
  deriving DecidableEq, Repr

/-- The three literal kinds (42 R143, R144, R145). -/
inductive LitKind where
  | linc
  | lnoidx
  | lnever
  deriving DecidableEq, Repr

/-- What a string literal is read for: the name of a literal, or its value once the name is known (41 R130). -/
inductive StrUse where
  | name (k : LitKind)
  | value (k : LitKind) (name : Bytes)
  deriving DecidableEq, Repr

/-- What a prefixed integer is read for: the index of an `IDX`, the name index of a literal, the new size of a `DTSU`,
the length of a string (`huff` is the Huffman flag of its first byte). -/
inductive IntUse where
  | index
  | nameIndex (k : LitKind)
  | newSize
  | strLen (huff : Bool) (use : StrUse)
  deriving DecidableEq, Repr

/-- Where a decode pass stands, that is, what its next read of FRAG is for. `rep`: the loop test of R140 and then a
representation's first byte. `cont use acc m`: a continuation byte of the integer read for `use`, with the `I` and `m`
of R122. `str use`: the first byte of a string literal. The MODEL's own state (log 1): the pseudocode's locals. -/
inductive Want where
  | rep
  | cont (use : IntUse) (acc m : Nat)
  | str (use : StrUse)
  deriving DecidableEq, Repr

/-- An operation of the host (46 R180 to R187). -/
inductive HostOp where
  | reset
  | feed (chunk : Bytes)
  | setMaxf (v : Word)
  | setCmax (v : Word)
  | setNc
  | decodeBlock (frag : Bytes)
  | fhParse
  | fbParse (h : FrameHeader)
  /-- The host has finished its reaction to the delivered frame (R185). -/
  | ack
  deriving DecidableEq, Repr

/-- What a direct `FH_PARSE` or `FB_PARSE` returned to the host (40 R100, R101). -/
inductive Ret where
  | nothing
  | header (h : Option FrameHeader)
  | body (p : Option Bytes)
  deriving DecidableEq, Repr

/-- One HFC instance (10_state R20). The first fourteen fields are the spec's; the last five are the model's own. -/
structure State where
  /-- `IB`, the inbound buffer (R21). -/
  ib : Bytes
  /-- `PHASE` (R22). -/
  phase : Phase
  /-- `PH`, the pending header (R23). -/
  ph : Option FrameHeader
  /-- `MAXF` (R24). -/
  maxf : Word
  /-- `NC`, need close, sticky (R25). -/
  nc : Bool
  /-- `FQ`, the frames delivered, oldest first (R26). -/
  fq : List (FrameHeader × Bytes)
  /-- `DT`, the dynamic table, newest first (R27). -/
  dt : List Header
  /-- `MTS`, the current size bound (R29). -/
  mts : Word
  /-- `CMAX`, the configured maximum (R30). -/
  cmax : Word
  /-- `FRAG`, the fragment of the pass (R32). -/
  frag : Bytes
  /-- `POS`, the cursor into FRAG (R32, R35). -/
  pos : Nat
  /-- `SUOK`, size update allowed (R33). -/
  suok : Bool
  /-- `OUT`, the result sequence of the pass (R34). -/
  out : List Item
  /-- Where the pass in progress stands; `none` when no pass is in progress (log 1). -/
  pass : Option Want
  /-- A delivered frame awaits the host's reaction (R185; log 3). -/
  ackDue : Bool
  /-- What the last direct parse call returned (log 4). -/
  ret : Ret
  /-- The host's operations not yet taken, oldest first (log 2). -/
  host : List HostOp
  /-- The parameters of the instance (R39; log 5). -/
  cfg : Params
  deriving DecidableEq, Repr

/-- Reasons the machine stops with a fault. -/
inductive Fault where
  /-- Raised by the sequencer (`Machine.fetch`) in phase `FB` with `PH = none`. Safe: R23 says no run reaches such a
  state (40 R104's "invariant: PH == some h"), and the spec gives it no behaviour. -/
  | noPendingHeader
  deriving DecidableEq, Repr

/-- Reasons a call is given no meaning. -/
inductive Refusal where
  /-- Raised by an arm of `exec` that has no meaning yet. Safe. -/
  | notModelled (mnemonic : String)
  /-- Raised by `DECODE_BLOCK`, and by a unit of a pass or a frame header, when `NC = 1` (60 R220 b). Safe. -/
  | afterClose
  /-- Raised by a unit executed where the block does not read it: inside another operation in progress, or with no pass
  in progress (60 R220 c). `step` never raises it. Safe. -/
  | overlap
  /-- Raised by `FB_PARSE` of a header with `failure = true` (60 R220 a). Safe. -/
  | failingHeader
  deriving DecidableEq, Repr

/-- The answer of a meaning. -/
abbrev Result := Host.Outcome State Fault Refusal

/-- `RESET` for an instance with parameters `c` (10_state R40, 70 R230). -/
def State.resetWith (c : Params) : State where
  ib := []
  phase := .fh
  ph := none
  maxf := c.maxfReset
  nc := false
  fq := []
  dt := []
  mts := c.cmaxReset
  cmax := c.cmaxReset
  frag := []
  pos := 0
  suok := true
  out := []
  pass := none
  ackDue := false
  ret := .nothing
  host := []
  cfg := c

/-- The machine right after reset, with the spec's default parameters (10_state R40). -/
def State.reset : State := State.resetWith Params.default

end Sys2Proof.Machine
end

