-- ==== Sys2Proof/Machine/StaticTable.lean ====
section
/-! DEFINITION. The static table ST (00_scope R11, 10_state R31, 43 R160 to R163). Rows 2 and 8 are the source's; the
other 59 rows are PRESUMED: the spec supplies them from general knowledge (log 7). -/

namespace Sys2Proof.Machine

/-- The octets of an ASCII text in double quotes (R14), read from its characters. -/
def ascii (s : String) : Bytes := s.toList.map fun c => BitVec.ofNat 8 c.toNat

/-- A row of the table: its name and its value, `none` where the table says absent. -/
def row (name : String) (value : Option String) : Entry := ⟨ascii name, value.map ascii⟩

/-- Rows 1 to 8 (43 R162). -/
def staticRows1 : List Entry :=
  [row ":authority" none,
   row ":method" (some "GET"),
   row ":method" (some "POST"),
   row ":path" (some "/"),
   row ":path" (some "/index.html"),
   row ":scheme" (some "http"),
   row ":scheme" (some "https"),
   row ":status" (some "200")]

/-- Rows 9 to 16 (43 R162). -/
def staticRows9 : List Entry :=
  [row ":status" (some "204"),
   row ":status" (some "206"),
   row ":status" (some "304"),
   row ":status" (some "400"),
   row ":status" (some "404"),
   row ":status" (some "500"),
   row "accept-charset" none,
   row "accept-encoding" (some "gzip, deflate")]

/-- Rows 17 to 24 (43 R162). -/
def staticRows17 : List Entry :=
  [row "accept-language" none,
   row "accept-ranges" none,
   row "accept" none,
   row "access-control-allow-origin" none,
   row "age" none,
   row "allow" none,
   row "authorization" none,
   row "cache-control" none]

/-- Rows 25 to 32 (43 R162). -/
def staticRows25 : List Entry :=
  [row "content-disposition" none,
   row "content-encoding" none,
   row "content-language" none,
   row "content-length" none,
   row "content-location" none,
   row "content-range" none,
   row "content-type" none,
   row "cookie" none]

/-- Rows 33 to 40 (43 R162). -/
def staticRows33 : List Entry :=
  [row "date" none,
   row "etag" none,
   row "expect" none,
   row "expires" none,
   row "from" none,
   row "host" none,
   row "if-match" none,
   row "if-modified-since" none]

/-- Rows 41 to 48 (43 R162). -/
def staticRows41 : List Entry :=
  [row "if-none-match" none,
   row "if-range" none,
   row "if-unmodified-since" none,
   row "last-modified" none,
   row "link" none,
   row "location" none,
   row "max-forwards" none,
   row "proxy-authenticate" none]

/-- Rows 49 to 56 (43 R162). -/
def staticRows49 : List Entry :=
  [row "proxy-authorization" none,
   row "range" none,
   row "referer" none,
   row "refresh" none,
   row "retry-after" none,
   row "server" none,
   row "set-cookie" none,
   row "strict-transport-security" none]

/-- Rows 57 to 61 (43 R162). -/
def staticRows57 : List Entry :=
  [row "transfer-encoding" none,
   row "user-agent" none,
   row "vary" none,
   row "via" none,
   row "www-authenticate" none]

/-- `ST` in index order: the row of index i is at place i - 1. -/
def staticTable : List Entry :=
  staticRows1 ++ staticRows9 ++ staticRows17 ++ staticRows25 ++ staticRows33 ++ staticRows41 ++ staticRows49 ++ staticRows57

end Sys2Proof.Machine
end

