-- ==== Sys2Proof/Machine/Ops.lean ====
section
/-! DEFINITION. The named operations over the state: one update per register, the cursor reads of 41 R120 and R121, the
dynamic table of R126 to R128, and taking an error (60 R208, R214). -/

namespace Sys2Proof.Machine

/-! ## One update per place of the state -/

/-- Writes `IB`. -/
def State.setIb (s : State) (b : Bytes) : State := { s with ib := b }

/-- Writes `PH` and `PHASE` for a header accepted (40 R103). -/
def State.awaitBody (s : State) (h : FrameHeader) : State := { s with ph := some h, phase := .fb }

/-- Hands a completed frame to the host (40 R104): the host's reaction is now due (46 R185). -/
def State.deliver (s : State) (h : FrameHeader) (p : Bytes) : State :=
  { s with ph := none, phase := .fh, fq := s.fq ++ [(h, p)], ackDue := true }

/-- Writes `MAXF`. -/
def State.setMaxf (s : State) (v : Word) : State := { s with maxf := v }

/-- Writes `CMAX`. -/
def State.setCmax (s : State) (v : Word) : State := { s with cmax := v }

/-- `NC <- 1` (10_state R25). -/
def State.close (s : State) : State := { s with nc := true }

/-- Writes `DT`. -/
def State.setDt (s : State) (dt : List Header) : State := { s with dt := dt }

/-- Writes `MTS`. -/
def State.setMts (s : State) (v : Word) : State := { s with mts := v }

/-- Writes `POS`. -/
def State.setPos (s : State) (p : Nat) : State := { s with pos := p }

/-- Says what the pass reads next. -/
def State.setWant (s : State) (w : Want) : State := { s with pass := some w }

/-- Ends the pass. -/
def State.endPass (s : State) : State := { s with pass := none }

/-- `SUOK <- 0` (42 R147). -/
def State.clearSuok (s : State) : State := { s with suok := false }

/-- Appends to `OUT` (00_scope R17). -/
def State.emit (s : State) (x : Item) : State := { s with out := s.out ++ [x] }

/-- Starts a pass over a fragment (42 R140, first line). -/
def State.startPass (s : State) (frag : Bytes) : State :=
  { s with frag := frag, pos := 0, suok := true, out := [], pass := some .rep }

/-- The host's operations left. -/
def State.setHost (s : State) (ops : List HostOp) : State := { s with host := ops }

/-- The host's reaction to the delivered frame is over (46 R185). -/
def State.acked (s : State) : State := { s with ackDue := false }

/-- What a direct parse returned. -/
def State.setRet (s : State) (r : Ret) : State := { s with ret := r }

/-! ## Errors -/

/-- `raise DecodeError(k)` (60 R208): the one way a decode error is taken. The representation is abandoned, `err k` ends
`OUT`, `NC <- 1`, the pass is over; nothing else changes. There is no saved state and no return (R219). -/
def raise (k : Cause) (s : State) : Result := .next ((s.emit (.err k)).close.endPass)

/-- A frame header that fails (60 R214): `NC <- 1` and nothing else. -/
def failHeader (s : State) : State := s.close

/-! ## Cursor reads -/

/-- `NextByte()` (41 R120). -/
def nextByte (s : State) : Except Cause (Byte × State) :=
  match s.frag[s.pos]? with
  | none => .error .hTrunc
  | some b => .ok (b, s.setPos (s.pos + 1))

/-- `TakeBytes(n)` (41 R121). -/
def takeBytes (n : Nat) (s : State) : Except Cause (Bytes × State) :=
  if s.frag.length - s.pos < n then .error .hTrunc
  else .ok ((s.frag.drop s.pos).take n, s.setPos (s.pos + n))

/-! ## The dynamic table -/

/-- `EntrySize` (41 R126). -/
def entrySize (h : Header) : Nat := h.name.length + h.value.length + Config.entryOverhead

/-- `SIZE(DT)` (10_state R28, 41 R126). -/
def tableSize : List Header → Nat
  | [] => 0
  | h :: dt => entrySize h + tableSize dt

/-- The eviction loop of R127 and R128, with at most `n` turns: the oldest entry goes while the size exceeds `bound`. -/
def evictLoop : Nat → Int → List Header → List Header
  | 0, _, dt => dt
  | n + 1, bound, dt =>
    if 0 < dt.length ∧ bound < (tableSize dt : Int) then evictLoop n bound dt.dropLast else dt

/-- The loop run to its end: each turn removes an entry, so as many turns as entries are enough (70 R245). -/
def evict (bound : Int) (dt : List Header) : List Header := evictLoop dt.length bound dt

/-- `EvictTo(n)` (41 R128). -/
def evictTo (n : Nat) (s : State) : State := s.setDt (evict n s.dt)

/-- The table after `Insert` under the bound `mts` (41 R127); `mts - size` is taken in the integers. -/
def inserted (mts : Nat) (h : Header) (dt : List Header) : List Header :=
  if entrySize h ≤ mts then h :: evict ((mts : Int) - entrySize h) dt
  else evict ((mts : Int) - entrySize h) dt

/-- `Insert(name, value)` (41 R127). -/
def insert (h : Header) (s : State) : State := s.setDt (inserted s.mts.toNat h s.dt)

/-- `Lookup(i)`, `i >= 1` (41 R125): static rows 1 to 61, then the dynamic table with its newest entry at 62. `none` is
`H_INDEX_RANGE`. -/
def lookup (i : Nat) (dt : List Header) : Option Entry :=
  if i ≤ Config.staticCount then staticTable[i - 1]?
  else (dt[i - (Config.staticCount + 1)]?).map fun h => ⟨h.name, some h.value⟩

/-! ## The form of the three address spaces -/

/-- The address spaces of 20_memory R50 are within their bounds: the cursor inside FRAG (R35), IB inside a finite
`IB_CAP` (R12), the dynamic table inside `MTS` (R28). The spaces are lists of bytes or entries, so equal contents are
equal data and nothing else is to be kept canonical (log 10). -/
def Memory.wf (s : State) : Bool :=
  decide (s.pos ≤ s.frag.length) &&
  (match s.cfg.ibCap with
    | none => true
    | some cap => decide (s.ib.length ≤ cap)) &&
  decide (tableSize s.dt ≤ s.mts.toNat)

end Sys2Proof.Machine
end

