-- ==== Sys2Proof/Machine/Flags.lean ====
section
/-! DEFINITION. The status flags (10_state R36): the computation of a header's `failure`, and the tests on `NC`, the pass
and the phase that a unit is executed under. -/

namespace Sys2Proof.Machine

/-- The causes a frame header has (60 R202, R203), both when both hold; kept for diagnostics only (R201). -/
def headerCauses (maxf : Word) (length : BitVec 24) (r : Bool) : List Cause :=
  (if r then [.fRsvd] else []) ++ (if maxf.toNat < length.toNat then [.fOversize] else [])

/-- `failure` of a header (40 R100): the reserved bit is 1 or `length > MAXF`. -/
def headerFails (maxf : Word) (length : BitVec 24) (r : Bool) : Bool :=
  r || decide (maxf.toNat < length.toNat)

/-- Runs a unit that is read at the start of a representation: a pass stands there and `NC = 0` (60 R220 b, c). -/
def atRep (s : State) (k : Result) : Result :=
  if s.nc then .refused .afterClose
  else match s.pass with
    | some .rep => k
    | _ => .refused .overlap

/-- Runs the first byte of a string literal, giving it what the string is read for. -/
def atStr (s : State) (k : StrUse → Result) : Result :=
  if s.nc then .refused .afterClose
  else match s.pass with
    | some (.str use) => k use
    | _ => .refused .overlap

/-- Runs a continuation byte, giving it what the integer is read for and the `I` and `m` of R122. -/
def atCont (s : State) (k : IntUse → Nat → Nat → Result) : Result :=
  if s.nc then .refused .afterClose
  else match s.pass with
    | some (.cont use acc m) => k use acc m
    | _ => .refused .overlap

/-- Runs a frame header: the sequencer is in phase `FH`, no pass and no reaction of the host is in progress, and
`NC = 0` (40 R103, 46 R185, 60 R220). -/
def atHeader (s : State) (k : Result) : Result :=
  if s.nc then .refused .afterClose
  else match s.pass, s.phase, s.ackDue with
    | none, .fh, false => k
    | _, _, _ => .refused .overlap

end Sys2Proof.Machine
end

