-- ==== Sys2Proof/Machine/Frame.lean ====
section
/-! DEFINITION. The frame codec and the sequencer's two phases (40 R100 to R105). -/

namespace Sys2Proof.Machine

/-- The record `FH_PARSE` makes of the fields of a header (40 R100). -/
def parsedHeader (maxf : Word) (length : BitVec 24) (type flags : BitVec 8) (r : Bool) (streamId : BitVec 31) :
    FrameHeader :=
  ⟨length, type, flags, streamId, headerFails maxf length r⟩

/-- `FH_PARSE` on a buffer (40 R100): the header and the bytes left, or `none` with fewer than 9 bytes. -/
def fhParse (maxf : Word) (ib : Bytes) : Option (FrameHeader × Bytes) :=
  match decode .frame ib with
  | .ok (.frameHdr length type flags r streamId, rest) => some (parsedHeader maxf length type flags r streamId, rest)
  | _ => none

/-- `FB_PARSE(h)` on a buffer (40 R101): the payload and the bytes left, or `none` with fewer than `length` bytes. -/
def fbParse (h : FrameHeader) (ib : Bytes) : Option (Bytes × Bytes) :=
  if ib.length < h.length.toNat then none
  else some (ib.take h.length.toNat, ib.drop h.length.toNat)

/-- `FRAME_ENCODE` (40 R102); the reserved bit is written 0 (D23). -/
def frameEncode (length : BitVec 24) (type flags : BitVec 8) (streamId : BitVec 31) (payload : Bytes) : Bytes :=
  headerBytes length type flags false streamId ++ payload

/-- What the sequencer does with a header just parsed (40 R103). -/
def acceptHeader (h : FrameHeader) (s : State) : State :=
  if h.failure then failHeader s else s.awaitBody h

/-- `FRAME_HDR`: the header parse inside the sequencer's step in phase `FH`, its 9 bytes already taken (40 R103). -/
def execFrameHdr (length : BitVec 24) (type flags : BitVec 8) (r : Bool) (streamId : BitVec 31) (s : State) : Result :=
  atHeader s (.next (acceptHeader (parsedHeader s.maxf length type flags r streamId) s))

/-- `STEP` is enabled (40 R105): `NC = 0` and the unit the phase waits for is whole in `IB`. -/
def stepEnabled (s : State) : Bool :=
  !s.nc && match s.phase, s.ph with
    | .fh, _ => decide (Config.frameHeaderLen ≤ s.ib.length)
    | .fb, some h => decide (h.length.toNat ≤ s.ib.length)
    | .fb, none => false

/-- `STEP()` of the sequencer as one transformation (40 R103, R104); with `none` from the parse it changes nothing. -/
def sequencerStep (s : State) : State :=
  match s.phase, s.ph with
  | .fh, _ => match fhParse s.maxf s.ib with
    | none => s
    | some (h, rest) => acceptHeader h (s.setIb rest)
  | .fb, some h => match fbParse h s.ib with
    | none => s
    | some (p, rest) => (s.setIb rest).deliver h p
  | .fb, none => s

/-- `RUN()` with at most `n` turns and a host that does not react to the frames (40 R105). -/
def drain : Nat → State → State
  | 0, s => s
  | n + 1, s => if stepEnabled s then drain n (sequencerStep s).acked else s

/-- `RUN()` (40 R105): as many turns as R105's bound allows. -/
def runSequencer (s : State) : State :=
  drain (2 * (s.ib.length / Config.frameHeaderLen) + 1) s

/-- `FEED(chunk); RUN` (46 R181). -/
def feedAndRun (s : State) (chunk : Bytes) : State :=
  runSequencer (if s.nc then s else s.setIb (s.ib ++ chunk))

end Sys2Proof.Machine
end

