-- ==== Sys2Proof/Machine/Operands.lean ====
section
/-! DEFINITION. The operand forms: the prefixed integer (41 R122, R129), the string literal (R124) and the literal's name
and value (R130), each as what happens when its last byte has been read. -/

namespace Sys2Proof.Machine

/-- The end of a literal representation (42 R143, R144, R145): `SUOK <- 0`, `Insert` for `LINC` only, `emit`. -/
def literalDone (k : LitKind) (h : Header) (s : State) : Result :=
  match k with
  | .linc => .next (((insert h s.clearSuok).emit (.ok h)).setWant .rep)
  | .lnoidx => .next ((s.clearSuok.emit (.ok h)).setWant .rep)
  | .lnever => .next ((s.clearSuok.emit (.ok h)).setWant .rep)

/-- A string has been decoded: a name is followed by the value string, a value ends the literal (R130). -/
def stringDone (use : StrUse) (x : Bytes) (s : State) : Result :=
  match use with
  | .name k => .next (s.setWant (.str (.value k x)))
  | .value k name => literalDone k ⟨name, x⟩ s

/-- `DecodeString` from its length on (41 R124): the octets, then the text check or the Huffman decoder. -/
def stringData (huffFlag : Bool) (use : StrUse) (n : Nat) (s : State) : Result :=
  match takeBytes n s with
  | .error k => raise k s
  | .ok (raw, s') =>
    if huffFlag then
      match huff s.cfg raw with
      | some x => stringDone use x s'
      | none => raise .hHuffman s'
    else if textOk s.cfg raw then stringDone use raw s'
    else raise .hText s'

/-- `IDX` from its index on (42 R142). -/
def indexDone (i : Nat) (s : State) : Result :=
  if i = 0 then raise .hIndexZero s
  else match lookup i s.dt with
    | none => raise .hIndexRange s
    | some e => match e.value with
      | none => raise .hNoValue s
      | some v => .next ((s.clearSuok.emit (.ok ⟨e.name, v⟩)).setWant .rep)

/-- A literal from its name index on (41 R130): 0 is a name string, nonzero an entry's name, its value not looked at. -/
def nameIndexDone (k : LitKind) (i : Nat) (s : State) : Result :=
  if i = 0 then .next (s.setWant (.str (.name k)))
  else match lookup i s.dt with
    | none => raise .hIndexRange s
    | some e => .next (s.setWant (.str (.value k e.name)))

/-- `DTSU` from its new size on (42 R146). -/
def newSizeDone (n : Nat) (s : State) : Result :=
  if s.cmax.toNat < n then raise .hSizeExceeds s
  else .next ((evictTo n (s.setMts (BitVec.ofNat 32 n))).setWant .rep)

/-- A prefixed integer has been decoded to `i`: it goes to what it was read for. -/
def intDone (use : IntUse) (i : Nat) (s : State) : Result :=
  match use with
  | .index => indexDone i s
  | .nameIndex k => nameIndexDone k i s
  | .newSize => newSizeDone i s
  | .strLen h u => stringData h u i s

/-- `DecodeInt` on its first byte (41 R122): a prefix of `n` bits with value `p`. -/
def intPrefix (n p : Nat) (use : IntUse) (s : State) : Result :=
  if p < 2 ^ n - 1 then intDone use p s
  else .next (s.setWant (.cont use (2 ^ n - 1) 0))

/-- `I + c[6:0] * 2^(7*m)` of R122. -/
def intAccumulate (acc m : Nat) (g : BitVec 7) : Nat := acc + g.toNat * 2 ^ (7 * m)

/-- The end of `DecodeInt` (41 R122): the bound is tested once, after the last byte (D26). -/
def intEnd (use : IntUse) (i : Nat) (s : State) : Result :=
  if Config.intMax < i then raise .hIntOverflow s else intDone use i s

/-- The bytes of `EncodeInt` after the first (41 R129): groups of `v`, least significant first, with `fuel` turns. -/
def encodeGroups : Nat → Nat → Bytes
  | 0, v => [BitVec.ofNat 8 v]
  | fuel + 1, v =>
    if 128 ≤ v then BitVec.ofNat 8 (0x80 ||| v % 128) :: encodeGroups fuel (v / 128)
    else [BitVec.ofNat 8 v]

/-- `EncodeInt(N, v, high)` (41 R129), the shortest spelling. -/
def encodeInt (n v : Nat) (high : Byte) : Bytes :=
  if v < 2 ^ n - 1 then [high ||| BitVec.ofNat 8 v]
  else (high ||| BitVec.ofNat 8 (2 ^ n - 1)) :: encodeGroups v (v - (2 ^ n - 1))

end Sys2Proof.Machine
end

