-- ==== Sys2Proof/Machine/Indexed.lean ====
section
/-! DEFINITION. The Indexed Header Field (42 R142). -/

namespace Sys2Proof.Machine

/-- `IDX`: a 7-bit prefixed index (R74, R142). -/
def execIdx (i : BitVec 7) (s : State) : Result :=
  atRep s (intPrefix 7 i.toNat .index s)

end Sys2Proof.Machine
end

