-- ==== Sys2Proof/Machine/Integers.lean ====
section
/-! DEFINITION. The continuation bytes of a prefixed integer (30 R79, 41 R122). -/

namespace Sys2Proof.Machine

/-- `INT.CONT`: a group is added and another continuation byte follows. -/
def execIntCont (g : BitVec 7) (s : State) : Result :=
  atCont s fun use acc m => .next (s.setWant (.cont use (intAccumulate acc m g) (m + 1)))

/-- `INT.LAST`: the last group is added, the bound is tested, and the integer goes to what it was read for. -/
def execIntLast (g : BitVec 7) (s : State) : Result :=
  atCont s fun use acc m => intEnd use (intAccumulate acc m g) s

end Sys2Proof.Machine
end

