-- ==== Sys2Proof/Machine/Literals.lean ====
section
/-! DEFINITION. The three literal kinds, each in its two forms (42 R143, R144, R145; shape of 41 R130). The form with a
literal name has the name index 0 in its first byte. -/

namespace Sys2Proof.Machine

/-- `LINC.N`: incremental indexing, literal name (R75, R143). -/
def execLincN (s : State) : Result := atRep s (intPrefix 6 0 (.nameIndex .linc) s)

/-- `LINC.I`: incremental indexing, indexed name (R75, R143). -/
def execLincI (i : BitVec 6) (s : State) : Result := atRep s (intPrefix 6 i.toNat (.nameIndex .linc) s)

/-- `LNOIDX.N`: without indexing, literal name (R76, R144). -/
def execLnoidxN (s : State) : Result := atRep s (intPrefix 4 0 (.nameIndex .lnoidx) s)

/-- `LNOIDX.I`: without indexing, indexed name (R76, R144). -/
def execLnoidxI (i : BitVec 4) (s : State) : Result := atRep s (intPrefix 4 i.toNat (.nameIndex .lnoidx) s)

/-- `LNEVER.N`: never indexed, literal name (R77, R145). -/
def execLneverN (s : State) : Result := atRep s (intPrefix 4 0 (.nameIndex .lnever) s)

/-- `LNEVER.I`: never indexed, indexed name (R77, R145). -/
def execLneverI (i : BitVec 4) (s : State) : Result := atRep s (intPrefix 4 i.toNat (.nameIndex .lnever) s)

end Sys2Proof.Machine
end

