-- ==== Sys2Proof/Machine/SizeUpdate.lean ====
section
/-! DEFINITION. The Dynamic Table Size Update (42 R146). -/

namespace Sys2Proof.Machine

/-- `DTSU`: `SUOK` is tested before the 5-bit prefixed size is decoded (R146, D22). -/
def execDtsu (n : BitVec 5) (s : State) : Result :=
  atRep s (if s.suok then intPrefix 5 n.toNat .newSize s else raise .hSizeLate s)

end Sys2Proof.Machine
end

