-- ==== Sys2Proof/Machine/Strings.lean ====
section
/-! DEFINITION. The two forms of a string literal (30 R80, 41 R124). -/

namespace Sys2Proof.Machine

/-- `STR.RAW`: Huffman flag clear. -/
def execStrRaw (l : BitVec 7) (s : State) : Result :=
  atStr s fun use => intPrefix 7 l.toNat (.strLen false use) s

/-- `STR.HUF`: Huffman flag set. -/
def execStrHuf (l : BitVec 7) (s : State) : Result :=
  atStr s fun use => intPrefix 7 l.toNat (.strLen true use) s

end Sys2Proof.Machine
end

