-- ==== Sys2Proof/Machine/Dispatch.lean ====
section
/-! DEFINITION. The dispatch: one arm per row of the opcode table. -/

namespace Sys2Proof.Machine

def exec (i : Instr) (s : State) : Host.Outcome State Fault Refusal :=
  match i with
  | .idx p => Sys2Proof.Machine.execIdx p s
  | .lincN => Sys2Proof.Machine.execLincN s
  | .lincI p => Sys2Proof.Machine.execLincI p s
  | .lnoidxN => Sys2Proof.Machine.execLnoidxN s
  | .lnoidxI p => Sys2Proof.Machine.execLnoidxI p s
  | .lneverN => Sys2Proof.Machine.execLneverN s
  | .lneverI p => Sys2Proof.Machine.execLneverI p s
  | .dtsu n => Sys2Proof.Machine.execDtsu n s
  | .strRaw l => Sys2Proof.Machine.execStrRaw l s
  | .strHuf l => Sys2Proof.Machine.execStrHuf l s
  | .intCont g => Sys2Proof.Machine.execIntCont g s
  | .intLast g => Sys2Proof.Machine.execIntLast g s
  | .frameHdr length type flags r sid => Sys2Proof.Machine.execFrameHdr length type flags r sid s

end Sys2Proof.Machine
end

