-- ==== Sys2Proof/Machine/HostOps.lean ====
section
/-! DEFINITION. The host's operations (46 R180 to R187, 40 R100, R101) and the observation outputs (R188). -/

namespace Sys2Proof.Machine

/-- `RESET` (46 R187, 70 R230): every piece of the spec's state at its reset value. The operations the host has still
to perform and the instance's parameters are not state of the block (R39). -/
def hostReset (s : State) : Result := .next ((State.resetWith s.cfg).setHost s.host)

/-- `FEED(chunk)` (46 R181): the chunk is discarded when `NC = 1` (D21). -/
def hostFeed (chunk : Bytes) (s : State) : Result :=
  .next (if s.nc then s else s.setIb (s.ib ++ chunk))

/-- `SET_MAXF(v)` (46 R182). -/
def hostSetMaxf (v : Word) (s : State) : Result := .next (if s.nc then s else s.setMaxf v)

/-- `SET_CMAX(v)` (46 R183). -/
def hostSetCmax (v : Word) (s : State) : Result := .next (if s.nc then s else s.setCmax v)

/-- `SET_NC` (46 R184). -/
def hostSetNc (s : State) : Result := .next s.close

/-- `DECODE_BLOCK(frag)` (42 R140, 46 R186): refused when `NC = 1` or inside a pass (60 R220), else a pass starts. -/
def hostDecodeBlock (frag : Bytes) (s : State) : Result :=
  if s.nc then .refused .afterClose
  else match s.pass with
    | some _ => .refused .overlap
    | none => .next (s.startPass frag)

/-- `FH_PARSE` called by the host (40 R100). With `NC = 1` nothing changes (10_state R25; log 4). -/
def hostFhParse (s : State) : Result :=
  if s.nc then .next s
  else match fhParse s.maxf s.ib with
    | none => .next (s.setRet (.header none))
    | some (h, rest) => .next ((s.setIb rest).setRet (.header (some h)))

/-- `FB_PARSE(h)` called by the host (40 R101); refused on a failing header (60 R220 a). -/
def hostFbParse (h : FrameHeader) (s : State) : Result :=
  if h.failure then .refused .failingHeader
  else if s.nc then .next s
  else match fbParse h s.ib with
    | none => .next (s.setRet (.body none))
    | some (p, rest) => .next ((s.setIb rest).setRet (.body (some p)))

/-- The host has finished its reaction to the delivered frame (46 R185). -/
def hostAck (s : State) : Result := .next (if s.nc then s else s.acked)

/-- One host operation. -/
def hostOp (op : HostOp) (s : State) : Result :=
  match op with
  | .reset => hostReset s
  | .feed chunk => hostFeed chunk s
  | .setMaxf v => hostSetMaxf v s
  | .setCmax v => hostSetCmax v s
  | .setNc => hostSetNc s
  | .decodeBlock frag => hostDecodeBlock frag s
  | .fhParse => hostFhParse s
  | .fbParse h => hostFbParse h s
  | .ack => hostAck s

/-- `FEED` is not enabled while the chunk does not fit a finite `IB_CAP` (00_scope R12, 46 R181); it stalls, it drops
nothing. With `NC = 1` the chunk is discarded, so it needs no room (log 8). -/
def stalled (op : HostOp) (s : State) : Bool :=
  match op, s.cfg.ibCap with
  | .feed chunk, some cap => !s.nc && decide (cap < s.ib.length + chunk.length)
  | _, _ => false

/-- The next operation of the host, or nothing: the block is at rest (70 R246). -/
def hostTurn (s : State) : Result :=
  match s.host with
  | [] => .next s
  | op :: ops => if stalled op s then .next s else hostOp op (s.setHost ops)

/-- What the host can read between operations (46 R188). -/
structure Observation where
  nc : Bool
  phase : Phase
  ph : Option FrameHeader
  ibLength : Nat
  maxf : Word
  cmax : Word
  mts : Word
  dtLength : Nat
  dtSize : Nat
  dt : List Header
  deriving DecidableEq, Repr

/-- The observation outputs (46 R188): reading them changes nothing. -/
def observe (s : State) : Observation where
  nc := s.nc
  phase := s.phase
  ph := s.ph
  ibLength := s.ib.length
  maxf := s.maxf
  cmax := s.cmax
  mts := s.mts
  dtLength := s.dt.length
  dtSize := tableSize s.dt
  dt := s.dt

end Sys2Proof.Machine
end

