-- ==== Sys2Proof/Machine/Fetch.lean ====
section
/-! DEFINITION. What a step does next: fetching a unit from FRAG or from the front of IB, delivering a frame, or taking a
host operation. An operation in progress is finished before the next begins (20 R62); the sequencer drains what is
complete in IB before the host's next operation (40 R105); after a delivery it waits for the host (46 R185). -/

namespace Sys2Proof.Machine

/-- What a step has to do: run a unit on the state with the unit's bytes taken, or answer at once. -/
inductive Fetched where
  | run (i : Instr) (s : State)
  | done (r : Result)
  deriving Repr

/-- `NextByte` and the decoder of the place it was read in (41 R120, 42 R141). -/
def fetchOctet (c : Ctx) (s : State) : Fetched :=
  match nextByte s with
  | .error k => .done (raise k s)
  | .ok (b, s') => .run (decodeOctet c b) s'

/-- The next read of a pass. At the start of a representation the loop test of 42 R140 comes first: with no byte left
the pass is over. -/
def fetchPass (w : Want) (s : State) : Fetched :=
  match w with
  | .rep => if s.pos < s.frag.length then fetchOctet .rep s else .done (.next s.endPass)
  | .str _ => fetchOctet .str s
  | .cont _ _ _ => fetchOctet .int s

/-- The sequencer in phase `FH` (40 R103): a header if 9 bytes are there, else the host's turn. -/
def fetchHeader (s : State) : Fetched :=
  match decode .frame s.ib with
  | .ok (i, rest) => .run i (s.setIb rest)
  | .error _ => .done (hostTurn s)

/-- The sequencer in phase `FB` (40 R104): the frame is delivered if its payload is there, else the host's turn. -/
def fetchBody (s : State) : Fetched :=
  match s.ph with
  | none => .done (.fault .noPendingHeader)
  | some h =>
    if h.failure then .done (.refused .failingHeader)
    else match fbParse h s.ib with
      | none => .done (hostTurn s)
      | some (p, rest) => .done (.next ((s.setIb rest).deliver h p))

/-- What the machine does next. With `NC = 1` nothing runs but the host's operations (60 R219). -/
def fetch (s : State) : Fetched :=
  if s.nc then .done (hostTurn s)
  else match s.pass with
    | some w => fetchPass w s
    | none =>
      if s.ackDue then .done (hostTurn s)
      else match s.phase with
        | .fh => fetchHeader s
        | .fb => fetchBody s

/-- A state whose next unit is the table word `w`: a pass over the one byte, or the nine bytes at the front of IB. -/
def placeWord (s : State) (nbits w : Nat) : State :=
  match tableSlot nbits with
  | .octet _ =>
    let t := s.startPass (tableBytes nbits w)
    { t with nc := false }
  | .frame =>
    { s with
      ib := tableBytes nbits w ++ s.ib.drop Config.frameHeaderLen
      phase := .fh
      ph := none
      nc := false
      pass := none
      ackDue := false }

end Sys2Proof.Machine
end

