-- ==== Sys2Proof/Machine/Pass.lean ====
section
/-! DEFINITION. `DECODE_BLOCK` as the spec's pseudocode writes it, one function per rule (41 R120 to R130, 42 R140 to
R146). The machine of Step.lean reads the same units one at a time; the claim that both end in the same state is
Obligations.PassRunsThePseudocode. -/

namespace Sys2Proof.Machine

/-- A read of FRAG: the value and the cursor after it, or the cause raised and the cursor then. -/
abbrev Read (α : Type) := Except (Cause × Nat) (α × Nat)

/-- `NextByte()` (R120). -/
def readByte (frag : Bytes) (pos : Nat) : Read Byte :=
  match frag[pos]? with
  | none => .error (.hTrunc, pos)
  | some b => .ok (b, pos + 1)

/-- `TakeBytes(n)` (R121). -/
def readBytes (frag : Bytes) (n pos : Nat) : Read Bytes :=
  if frag.length - pos < n then .error (.hTrunc, pos)
  else .ok ((frag.drop pos).take n, pos + n)

/-- The loop of R122 with at most `fuel` turns, and the bound after it. -/
def readGroups (frag : Bytes) : (fuel acc m pos : Nat) → Read Nat
  | 0, _, _, pos => .error (.hTrunc, pos)
  | fuel + 1, acc, m, pos =>
    match readByte frag pos with
    | .error e => .error e
    | .ok (c, pos') =>
      let acc' := acc + c.toNat % 128 * 2 ^ (7 * m)
      if c.getLsbD 7 then readGroups frag fuel acc' (m + 1) pos'
      else if 2 ^ 32 - 1 < acc' then .error (.hIntOverflow, pos')
      else .ok (acc', pos')

/-- `DecodeInt(N, first)` (R122). The loop has no more turns than bytes are left, and one that finds none. -/
def readInt (frag : Bytes) (n : Nat) (first : Byte) (pos : Nat) : Read Nat :=
  let p := first.toNat % 2 ^ n
  if p < 2 ^ n - 1 then .ok (p, pos)
  else readGroups frag (frag.length - pos + 1) (2 ^ n - 1) 0 pos

/-- `DecodeString()` (R124). -/
def readString (c : Params) (frag : Bytes) (pos : Nat) : Read Bytes :=
  match readByte frag pos with
  | .error e => .error e
  | .ok (h, pos) =>
    match readInt frag 7 h pos with
    | .error e => .error e
    | .ok (len, pos) =>
      match readBytes frag len pos with
      | .error e => .error e
      | .ok (raw, pos) =>
        if h.getLsbD 7 then
          match huff c raw with
          | some x => .ok (x, pos)
          | none => .error (.hHuffman, pos)
        else if textOk c raw then .ok (raw, pos)
        else .error (.hText, pos)

/-- `DecodeLiteral(N, b)` (R130). -/
def readLiteral (c : Params) (dt : List Header) (frag : Bytes) (n : Nat) (b : Byte) (pos : Nat) : Read Header :=
  match readInt frag n b pos with
  | .error e => .error e
  | .ok (i, pos) =>
    let name : Read Bytes :=
      if i = 0 then readString c frag pos
      else match lookup i dt with
        | none => .error (.hIndexRange, pos)
        | some e => .ok (e.name, pos)
    match name with
    | .error e => .error e
    | .ok (name, pos) =>
      match readString c frag pos with
      | .error e => .error e
      | .ok (value, pos) => .ok (⟨name, value⟩, pos)

/-- The body of the loop of R140 after `NextByte`: dispatch (R141) and one of R142 to R146. On an error the state is the
one before the representation, and the second component is the cursor. -/
def representation (b : Byte) (s : State) : Except (Cause × Nat) State :=
  if b.getLsbD 7 then
    match readInt s.frag 7 b s.pos with
    | .error e => .error e
    | .ok (i, pos) =>
      if i = 0 then .error (.hIndexZero, pos)
      else match lookup i s.dt with
        | none => .error (.hIndexRange, pos)
        | some e => match e.value with
          | none => .error (.hNoValue, pos)
          | some v => .ok ((s.setPos pos).clearSuok.emit (.ok ⟨e.name, v⟩))
  else if b.getLsbD 6 then
    match readLiteral s.cfg s.dt s.frag 6 b s.pos with
    | .error e => .error e
    | .ok (h, pos) => .ok ((insert h (s.setPos pos).clearSuok).emit (.ok h))
  else if b.getLsbD 5 then
    if !s.suok then .error (.hSizeLate, s.pos)
    else match readInt s.frag 5 b s.pos with
      | .error e => .error e
      | .ok (n, pos) =>
        if s.cmax.toNat < n then .error (.hSizeExceeds, pos)
        else .ok (evictTo n ((s.setPos pos).setMts (BitVec.ofNat 32 n)))
  else
    match readLiteral s.cfg s.dt s.frag 4 b s.pos with
    | .error e => .error e
    | .ok (h, pos) => .ok ((s.setPos pos).clearSuok.emit (.ok h))

/-- The loop of R140 with at most `fuel` turns; a representation has at least one byte, so as many as bytes are enough. -/
def passLoop : Nat → State → State
  | 0, s => s
  | fuel + 1, s =>
    match readByte s.frag s.pos with
    | .error _ => s
    | .ok (b, pos) =>
      match representation b (s.setPos pos) with
      | .ok t => passLoop fuel t
      | .error (k, pos) => ((s.setPos pos).emit (.err k)).close

/-- `DECODE_BLOCK(frag)` run to its end (42 R140). -/
def decodeBlock (frag : Bytes) (s : State) : State :=
  (passLoop frag.length (s.startPass frag)).endPass

end Sys2Proof.Machine
end

