-- ==== Sys2Proof/Safety.lean ====
section
/-! DEFINITION. What the statements are said in: runs of steps, the machine's invariant, where a unit is executed, where
the block is at rest. -/

namespace Sys2Proof.Machine

/-- `n` steps, stopping at the first fault or refusal. -/
def runSteps : Nat → State → Result
  | 0, s => .next s
  | n + 1, s =>
    match step s with
    | .next t => runSteps n t
    | .fault r => .fault r
    | .refused r => .refused r

/-- The place a pass reads its next byte in. -/
def Want.ctx : Want → Ctx
  | .rep => .rep
  | .cont _ _ _ => .int
  | .str _ => .str

/-- An `ok` item. -/
def Item.isOk : Item → Bool
  | .ok _ => true
  | .err _ => false

/-- With `NC = 0`, the block waits for the host (40 R103 to R105, 46 R185): no pass is in progress, and a delivered frame
awaits its reaction (log 3), or the phase is FH with no header whole in IB, or the phase is FB with the payload of the
pending header not whole in IB. -/
def HostsTurn (s : State) : Prop :=
  s.pass = none ∧
    (s.ackDue = true ∨ (s.phase = .fh ∧ s.ib.length < 9) ∨
      ∃ h, s.phase = .fb ∧ s.ph = some h ∧ h.failure = false ∧ s.ib.length < h.length.toNat)

/-- The shape of `OUT` (10_state R34, 42 R140): every item but the last is `ok`. -/
def outShape (out : List Item) : Bool := out.dropLast.all Item.isOk

/-- The invariant of every state a run reaches. -/
structure State.Inv (s : State) : Prop where
  /-- 10_state R23: `PH = none` exactly when `PHASE = FH`. -/
  pending : s.ph = none ↔ s.phase = .fh
  /-- 10_state R23: the pending header does not fail. -/
  pendingSound : ∀ h, s.ph = some h → h.failure = false
  /-- 10_state R26: every delivered header is sound and its payload whole. -/
  delivered : ∀ f ∈ s.fq, f.1.failure = false ∧ f.2.length = f.1.length.toNat
  /-- 10_state R28, R32, 00_scope R12: the address spaces are within their bounds. -/
  memory : Memory.wf s = true
  /-- 10_state R34: an error can only be the last item of `OUT`. -/
  shape : outShape s.out = true
  /-- 60_exceptions R208: an error in `OUT` comes with `NC = 1`. -/
  closed : (∃ k, .err k ∈ s.out) → s.nc = true
  /-- 60_exceptions R208, R219: no pass is in progress with `NC = 1`. -/
  passOpen : s.pass ≠ none → s.nc = false
  /-- 10_state R33, 42 R147: in a pass `SUOK` is 1 exactly while no field representation has completed. -/
  window : s.pass ≠ none → (s.suok = true ↔ s.out = [])

/-- A decode error taken (60 R208), field by field. -/
def failed (k : Cause) (s : State) : State :=
  { s with out := s.out ++ [.err k], nc := true, pass := none }

/-- The unit `x`, executed at `s`, completes the prefixed integer read for `u`, and its value is `v` (30 R79, 41 R122):
either the prefix holds it, or `x` is its last continuation byte and the value is within 2^32 - 1. -/
def Delivers (u : IntUse) (x : Instr) (s : State) (v : Nat) : Prop :=
  s.nc = false ∧
  match x with
  | .idx p => s.pass = some .rep ∧ u = .index ∧ p.toNat < 127 ∧ v = p.toNat
  | .lincN => s.pass = some .rep ∧ u = .nameIndex .linc ∧ v = 0
  | .lincI p => s.pass = some .rep ∧ u = .nameIndex .linc ∧ p.toNat < 63 ∧ v = p.toNat
  | .lnoidxN => s.pass = some .rep ∧ u = .nameIndex .lnoidx ∧ v = 0
  | .lnoidxI p => s.pass = some .rep ∧ u = .nameIndex .lnoidx ∧ p.toNat < 15 ∧ v = p.toNat
  | .lneverN => s.pass = some .rep ∧ u = .nameIndex .lnever ∧ v = 0
  | .lneverI p => s.pass = some .rep ∧ u = .nameIndex .lnever ∧ p.toNat < 15 ∧ v = p.toNat
  | .dtsu p => s.pass = some .rep ∧ s.suok = true ∧ u = .newSize ∧ p.toNat < 31 ∧ v = p.toNat
  | .strRaw l => ∃ w, s.pass = some (.str w) ∧ u = .strLen false w ∧ l.toNat < 127 ∧ v = l.toNat
  | .strHuf l => ∃ w, s.pass = some (.str w) ∧ u = .strLen true w ∧ l.toNat < 127 ∧ v = l.toNat
  | .intCont _ => False
  | .intLast g => ∃ acc m, s.pass = some (.cont u acc m) ∧ v = acc + g.toNat * 2 ^ (7 * m) ∧ v ≤ 2 ^ 32 - 1
  | .frameHdr _ _ _ _ _ => False

/-- The octets of a prefixed integer after its first byte, `groups` before the last (30 R79). -/
def groupBytes (groups : List (BitVec 7)) (last : BitVec 7) : Bytes :=
  groups.map (fun g => 1#1 ++ g) ++ [0#1 ++ last]

/-- `g0 * 2^(7m) + g1 * 2^(7(m+1)) + …` (30 R79). -/
def groupSum : List (BitVec 7) → Nat → Nat
  | [], _ => 0
  | g :: gs, m => g.toNat * 2 ^ (7 * m) + groupSum gs (m + 1)

/-- The bits of a Huffman code, first transmitted bit first (44 R172). -/
def codeBits (code len : Nat) : List Bool := (List.range len).map fun k => code.testBit (len - 1 - k)

end Sys2Proof.Machine
end

