-- ==== Sys2Proof/Certificates/Slice0/Obligations.lean ====
section
/-! DEFINITION. The statements about the model, for the provers. Each docstring names the rules of spec/ it comes from. -/

open Sys2Proof Sys2Proof.Machine

/-! ## Encoding -/

/-- Decode and encode agree: in the place a unit is read, its bytes followed by anything decode to it and leave what
follows. -/
def Obligations.DecodeOfEncode : Prop :=
  ∀ (i : Instr) (rest : Bytes), i.wf = true → decode i.slot (encode i ++ rest) = .ok (i, rest)

/-- Whatever decodes is a well-formed unit of that place, and its encoding is exactly the bytes it was read from. -/
def Obligations.EncodeOfDecode : Prop :=
  ∀ (p : Slot) (bytes : Bytes) (i : Instr) (rest : Bytes),
    decode p bytes = .ok (i, rest) → i.wf = true ∧ i.slot = p ∧ bytes = encode i ++ rest

/-- The opcode map by value of a representation's first byte (R82), the fields by R73. -/
def Obligations.FirstByteMap : Prop :=
  ∀ b : Byte,
    (b = 0x00 → decodeOctet .rep b = .lnoidxN) ∧
    (0x01 ≤ b.toNat ∧ b.toNat ≤ 0x0F → decodeOctet .rep b = .lnoidxI (b.setWidth 4)) ∧
    (b = 0x10 → decodeOctet .rep b = .lneverN) ∧
    (0x11 ≤ b.toNat ∧ b.toNat ≤ 0x1F → decodeOctet .rep b = .lneverI (b.setWidth 4)) ∧
    (0x20 ≤ b.toNat ∧ b.toNat ≤ 0x3F → decodeOctet .rep b = .dtsu (b.setWidth 5)) ∧
    (b = 0x40 → decodeOctet .rep b = .lincN) ∧
    (0x41 ≤ b.toNat ∧ b.toNat ≤ 0x7F → decodeOctet .rep b = .lincI (b.setWidth 6)) ∧
    (0x80 ≤ b.toNat → decodeOctet .rep b = .idx (b.setWidth 7))

/-- The two other places a byte of the fragment is read in: the Huffman flag (R80) and the continuation flag (R79) are
bit 7, the field is bits 6 to 0. -/
def Obligations.StringAndContinuationBytes : Prop :=
  ∀ b : Byte,
    (b.toNat < 128 → decodeOctet .str b = .strRaw (b.setWidth 7) ∧ decodeOctet .int b = .intLast (b.setWidth 7)) ∧
    (128 ≤ b.toNat → decodeOctet .str b = .strHuf (b.setWidth 7) ∧ decodeOctet .int b = .intCont (b.setWidth 7))

/-- Words written out from the spec's encodings (30 R71 to R80, 95 F2, F11), one or more of each family. -/
def Obligations.WordsFromTheSpec : Prop :=
  decode (.octet .rep) [0b10000010] = .ok (.idx 2, []) ∧
  decode (.octet .rep) [0b01000001] = .ok (.lincI 1, []) ∧
  decode (.octet .rep) [0b00000100] = .ok (.lnoidxI 4, []) ∧
  decode (.octet .rep) [0b00010000] = .ok (.lneverN, []) ∧
  decode (.octet .rep) [0b00111111] = .ok (.dtsu 31, []) ∧
  decode (.octet .str) [0b10001100] = .ok (.strHuf 12, []) ∧
  decode (.octet .int) [0b11100001] = .ok (.intCont 97, []) ∧
  decode .frame [0x00, 0x00, 0x14, 0x01, 0x04, 0x00, 0x00, 0x00, 0x01, 0x82] =
    .ok (.frameHdr 20 1 4 false 1, [0x82])

/-- Big-endian header fields (R54): the fields of nine bytes as the sums the rule writes. -/
def Obligations.HeaderFieldsBigEndian : Prop :=
  ∀ (h0 h1 h2 h3 h4 h5 h6 h7 h8 : Byte) (rest : Bytes),
    ∃ (len : BitVec 24) (r : Bool) (sid : BitVec 31),
      decode .frame (h0 :: h1 :: h2 :: h3 :: h4 :: h5 :: h6 :: h7 :: h8 :: rest) =
        .ok (.frameHdr len h3 h4 r sid, rest) ∧
      len.toNat = h0.toNat * 65536 + h1.toNat * 256 + h2.toNat ∧
      sid.toNat + r.toNat * 2 ^ 31 =
        h5.toNat * 2 ^ 24 + h6.toNat * 2 ^ 16 + h7.toNat * 2 ^ 8 + h8.toNat

/-! ## Reset and the invariant -/

/-- The reset values of R40, each written out. -/
def Obligations.ResetValues : Prop :=
  State.reset.ib = [] ∧ State.reset.phase = .fh ∧ State.reset.ph = none ∧ State.reset.maxf = 16384 ∧
  State.reset.nc = false ∧ State.reset.fq = [] ∧ State.reset.dt = [] ∧ State.reset.mts = 4096 ∧
  State.reset.cmax = 4096 ∧ State.reset.frag = [] ∧ State.reset.pos = 0 ∧ State.reset.suok = true ∧
  State.reset.out = []

/-- `RESET`, taken with `NC = 1` or at the host's turn, puts every piece of the spec's state at its reset value, whatever it
was (R187, R230); MAXF, CMAX and MTS take the instance's parameters (R6, R7). That `pass`, `ackDue` and `ret` are cleared
is the model's choice (log 1, log 3, log 4), the fields being its own. -/
def Obligations.ResetOperation : Prop :=
  ∀ (s : State) (ops : List HostOp), s.host = .reset :: ops →
    (s.nc = true ∨ HostsTurn s) →
    step s = .next
      { ib := [], phase := .fh, ph := none, maxf := s.cfg.maxfReset, nc := false, fq := [], dt := [],
        mts := s.cfg.cmaxReset, cmax := s.cfg.cmaxReset, frag := [], pos := 0, suok := true, out := [],
        pass := none, ackDue := false, ret := .nothing, host := ops, cfg := s.cfg }

/-- The invariant holds at reset. -/
def Obligations.InvariantAtReset : Prop := State.reset.Inv

/-- Every step keeps the invariant, from every state that has it (R23, R26, R28, R32, R33, R34, R208). -/
def Obligations.StepKeepsInvariant : Prop :=
  ∀ s t : State, s.Inv → step s = .next t → t.Inv

/-- In a state with the invariant the machine never faults, and it refuses exactly the two calls of R220 (a) and (b)
that a single agent can make: a unit of the table is never refused. -/
def Obligations.OnlyTheRefusalsOfR220 : Prop :=
  ∀ s : State, s.Inv →
    (∀ f, step s ≠ .fault f) ∧
    ∀ r, step s = .refused r →
      (r = .afterClose ∧ s.nc = true ∧ ∃ frag, s.host.head? = some (.decodeBlock frag)) ∨
      (r = .failingHeader ∧ ∃ h, h.failure = true ∧ s.host.head? = some (.fbParse h))

/-! ## One step -/

/-- A step runs the decoded unit: of a pass on the byte at the cursor, with the cursor moved past it (`NextByte`, R120),
in phase FH on the nine bytes at the front of IB, which are taken (R100). -/
def Obligations.StepRunsTheDecodedUnit : Prop :=
  (∀ (s : State) (w : Want) (b : Byte), s.nc = false → s.pass = some w → s.frag[s.pos]? = some b →
    step s = exec (decodeOctet w.ctx b) { s with pos := s.pos + 1 }) ∧
  (∀ (s : State) (i : Instr) (rest : Bytes), s.nc = false → s.pass = none → s.ackDue = false → s.phase = .fh →
    decode .frame s.ib = .ok (i, rest) → step s = exec i { s with ib := rest })

/-- At the end of the fragment: between representations the pass is over and nothing else changes (R140); anywhere else
the read raises `H_TRUNC` (R120, R204), by the spec's decision D19 also where a string's first byte is missing, and by D26
also where the integer read so far exceeds the bound (the label is advisory there: R217, log 12). -/
def Obligations.EndOfTheFragment : Prop :=
  ∀ (s : State) (w : Want), s.nc = false → s.pass = some w → s.frag.length ≤ s.pos →
    (w = .rep → step s = .next { s with pass := none }) ∧
    (w ≠ .rep → step s = .next (failed .hTrunc s))

/-- While `NC = 1` a step that does not take `RESET` leaves all state unchanged; only the host's operation is taken
(R25, R219). Two cases are the model's choice, not the spec's words: a `FEED` that exceeds a finite IB_CAP is taken too,
its chunk discarded (log 8), and a direct parse is taken with `ret` kept (log 4). -/
def Obligations.CloseFreezesTheState : Prop :=
  ∀ s t : State, s.nc = true → step s = .next t → s.host.head? ≠ some .reset →
    t = { s with host := s.host.tail }

/-- The whole machine: which operations change MAXF, CMAX and the parameters (R24, R30, R39). -/
def Obligations.ConfigurationWriters : Prop :=
  ∀ s t : State, step s = .next t → s.host.head? ≠ some .reset →
    (t.maxf = s.maxf ∨ ∃ v, s.host.head? = some (.setMaxf v) ∧ t.maxf = v) ∧
    (t.cmax = s.cmax ∨ ∃ v, s.host.head? = some (.setCmax v) ∧ t.cmax = v) ∧
    t.cfg = s.cfg

/-- The two units share only NC: a step inside a pass leaves the frame codec's state and the host's operations alone,
and a step outside one changes nothing of the HPACK unit unless it takes a host operation (R20, R106, R148). -/
def Obligations.UnitsDoNotInterfere : Prop :=
  ∀ s t : State, s.nc = false → step s = .next t →
    (s.pass ≠ none →
      t.ib = s.ib ∧ t.phase = s.phase ∧ t.ph = s.ph ∧ t.maxf = s.maxf ∧ t.fq = s.fq ∧ t.cmax = s.cmax ∧
      t.frag = s.frag ∧ t.ackDue = s.ackDue ∧ t.ret = s.ret ∧ t.host = s.host ∧ t.cfg = s.cfg) ∧
    (s.pass = none → t.host = s.host →
      t.dt = s.dt ∧ t.mts = s.mts ∧ t.cmax = s.cmax ∧ t.frag = s.frag ∧ t.pos = s.pos ∧ t.suok = s.suok ∧
      t.out = s.out ∧ t.pass = none ∧ t.maxf = s.maxf ∧ t.ret = s.ret ∧ t.cfg = s.cfg)

/-- The cursor never moves backward and never passes the end of the fragment (R35). -/
def Obligations.CursorOnlyAdvances : Prop :=
  ∀ s t : State, s.nc = false → s.pass ≠ none → s.pos ≤ s.frag.length → step s = .next t →
    s.pos ≤ t.pos ∧ t.pos ≤ t.frag.length

/-! ## Prefixed integers -/

/-- `DecodeInt` on a first byte whose prefix is all ones (R79, R122): a continuation byte is read next, the value
starting from 2^N - 1, and nothing else changes. -/
def Obligations.AllOnesPrefixContinues : Prop :=
  ∀ s : State, s.nc = false →
    (s.pass = some .rep →
      exec (.idx 127) s = .next { s with pass := some (.cont .index 127 0) } ∧
      exec (.lincI 63) s = .next { s with pass := some (.cont (.nameIndex .linc) 63 0) } ∧
      exec (.lnoidxI 15) s = .next { s with pass := some (.cont (.nameIndex .lnoidx) 15 0) } ∧
      exec (.lneverI 15) s = .next { s with pass := some (.cont (.nameIndex .lnever) 15 0) } ∧
      (s.suok = true → exec (.dtsu 31) s = .next { s with pass := some (.cont .newSize 31 0) })) ∧
    (∀ w, s.pass = some (.str w) →
      exec (.strRaw 127) s = .next { s with pass := some (.cont (.strLen false w) 127 0) } ∧
      exec (.strHuf 127) s = .next { s with pass := some (.cont (.strLen true w) 127 0) })

/-- A continuation byte adds its low 7 bits scaled by 2^(7m); with bit 7 set another follows (R79, R122), and nothing
else changes. That the bound is not tested before the last byte is the spec's decision D26 (log 12). -/
def Obligations.ContinuationByteAccumulates : Prop :=
  ∀ (s : State) (u : IntUse) (acc m : Nat) (g : BitVec 7), s.nc = false → s.pass = some (.cont u acc m) →
    exec (.intCont g) s = .next { s with pass := some (.cont u (acc + g.toNat * 2 ^ (7 * m)) (m + 1)) }

/-- The last continuation byte: a value above 2^32 - 1 raises `H_INT_OVERFLOW` (R122, R205). -/
def Obligations.IntegerOverflowIsAnError : Prop :=
  ∀ (s : State) (u : IntUse) (acc m : Nat) (g : BitVec 7), s.nc = false → s.pass = some (.cont u acc m) →
    2 ^ 32 - 1 < acc + g.toNat * 2 ^ (7 * m) → exec (.intLast g) s = .next (failed .hIntOverflow s)

/-- A whole run of continuation bytes `g0, …, gk` is read in as many steps, wherever it stands in the fragment, and the
integer that reaches the last byte's test is the base plus the sum of `gj * 2^(7j)` (R79, R55). -/
def Obligations.ContinuationBytesSumUp : Prop :=
  ∀ (s : State) (u : IntUse) (base : Nat) (groups : List (BitVec 7)) (last : BitVec 7) (before after : Bytes),
    s.nc = false → s.pass = some (.cont u base 0) → s.pos = before.length →
    s.frag = before ++ groupBytes groups last ++ after →
    runSteps (groups.length + 1) s =
      exec (.intLast last)
        { s with
          pos := before.length + groups.length + 1
          pass := some (.cont u (base + groupSum groups 0) groups.length) } ∧
    groupSum (groups ++ [last]) 0 = groupSum groups 0 + last.toNat * 2 ^ (7 * groups.length)

/-- `EncodeInt` and `DecodeInt` agree (R129's law): for every value up to 2^32 - 1, every prefix width the block uses and
any bits above the prefix, the shortest spelling is read back whole and gives the value. -/
def Obligations.EncodedIntegerDecodes : Prop :=
  ∀ (n v : Nat) (high : Byte) (rest : Bytes), n ∈ [4, 5, 6, 7] → v ≤ 2 ^ 32 - 1 → high.toNat % 2 ^ n = 0 →
    ∃ first more, encodeInt n v high = first :: more ∧
      readInt (first :: more ++ rest) n first 1 = .ok (v, more.length + 1)

/-- The boundary of R123 and of the source's testable property: 2^N - 2 sits in the first byte, 2^32 - 1 decodes, 2^32
does not, for N = 4, 5, 6, 7. -/
def Obligations.IntegerBoundaries : Prop :=
  readInt [0x0E] 4 0x0E 1 = .ok (14, 1) ∧ readInt [0x1E] 5 0x1E 1 = .ok (30, 1) ∧
  readInt [0x3E] 6 0x3E 1 = .ok (62, 1) ∧ readInt [0x7E] 7 0x7E 1 = .ok (126, 1) ∧
  readInt [0x0F, 0xF0, 0xFF, 0xFF, 0xFF, 0x0F] 4 0x0F 1 = .ok (4294967295, 6) ∧
  readInt [0x1F, 0xE0, 0xFF, 0xFF, 0xFF, 0x0F] 5 0x1F 1 = .ok (4294967295, 6) ∧
  readInt [0x3F, 0xC0, 0xFF, 0xFF, 0xFF, 0x0F] 6 0x3F 1 = .ok (4294967295, 6) ∧
  readInt [0x7F, 0x80, 0xFF, 0xFF, 0xFF, 0x0F] 7 0x7F 1 = .ok (4294967295, 6) ∧
  readInt [0x0F, 0xF1, 0xFF, 0xFF, 0xFF, 0x0F] 4 0x0F 1 = .error (.hIntOverflow, 6) ∧
  readInt [0x1F, 0xE1, 0xFF, 0xFF, 0xFF, 0x0F] 5 0x1F 1 = .error (.hIntOverflow, 6) ∧
  readInt [0x3F, 0xC1, 0xFF, 0xFF, 0xFF, 0x0F] 6 0x3F 1 = .error (.hIntOverflow, 6) ∧
  readInt [0x7F, 0x81, 0xFF, 0xFF, 0xFF, 0x0F] 7 0x7F 1 = .error (.hIntOverflow, 6)

/-! ## Strings -/

/-- `DecodeString` on a raw string (R124, R121): fewer octets left than its length raise `H_TRUNC`; octets `TextOk`
rejects raise `H_TEXT`, the cursor past them. -/
def Obligations.RawStringErrors : Prop :=
  ∀ (x : Instr) (s : State) (w : StrUse) (v : Nat), Delivers (.strLen false w) x s v →
    (s.frag.length - s.pos < v → exec x s = .next (failed .hTrunc s)) ∧
    (v ≤ s.frag.length - s.pos → textOk s.cfg ((s.frag.drop s.pos).take v) = false →
      exec x s = .next (failed .hText { s with pos := s.pos + v }))

/-- A raw string read for a name: its octets are the name, the value string is read next, and nothing else changes but
the cursor (R124, R130). The units of a raw string are `strRaw` and, for a continued length, `intLast`. -/
def Obligations.RawNameString : Prop :=
  ∀ (x : Instr) (s : State) (k : LitKind) (v : Nat), Delivers (.strLen false (.name k)) x s v →
    v ≤ s.frag.length - s.pos → textOk s.cfg ((s.frag.drop s.pos).take v) = true →
    exec x s = .next
      { s with pos := s.pos + v, pass := some (.str (.value k ((s.frag.drop s.pos).take v))) }

/-- A raw string read for the value of a literal without indexing or never indexed (R144, R145): the header is emitted,
`SUOK <- 0`, `DT` and `MTS` are untouched. -/
def Obligations.RawValueEndsUnindexedLiteral : Prop :=
  ∀ (x : Instr) (s : State) (k : LitKind) (name : Bytes) (v : Nat), k ≠ .linc →
    Delivers (.strLen false (.value k name)) x s v →
    v ≤ s.frag.length - s.pos → textOk s.cfg ((s.frag.drop s.pos).take v) = true →
    exec x s = .next
      { s with
        pos := s.pos + v, suok := false, out := s.out ++ [.ok ⟨name, (s.frag.drop s.pos).take v⟩]
        pass := some .rep }

/-- A raw string read for the value of a literal with incremental indexing (R143): the same, and the header is inserted
in the dynamic table under `MTS`. -/
def Obligations.RawValueEndsIndexedLiteral : Prop :=
  ∀ (x : Instr) (s : State) (name : Bytes) (v : Nat), Delivers (.strLen false (.value .linc name)) x s v →
    v ≤ s.frag.length - s.pos → textOk s.cfg ((s.frag.drop s.pos).take v) = true →
    exec x s = .next
      { s with
        pos := s.pos + v, suok := false, out := s.out ++ [.ok ⟨name, (s.frag.drop s.pos).take v⟩]
        dt := inserted s.mts.toNat ⟨name, (s.frag.drop s.pos).take v⟩ s.dt
        pass := some .rep }

/-- A Huffman string (R124, R170), for whatever `HUFF` answers: truncation comes before the call; `Err` raises `H_HUFFMAN`
(R212, by R171 the spec's decision D9); `Ok y` is the string, a name (R130) or the value that ends the literal (R143 to
R145, R147), and it is `y` that is inserted (R127). The units are `strHuf` and, for a continued length, `intLast`. -/
def Obligations.HuffmanStringIsDelegated : Prop :=
  ∀ (x : Instr) (s : State) (w : StrUse) (v : Nat), Delivers (.strLen true w) x s v →
    (s.frag.length - s.pos < v → exec x s = .next (failed .hTrunc s)) ∧
    (v ≤ s.frag.length - s.pos → huff s.cfg ((s.frag.drop s.pos).take v) = none →
      exec x s = .next (failed .hHuffman { s with pos := s.pos + v })) ∧
    (∀ y, v ≤ s.frag.length - s.pos → huff s.cfg ((s.frag.drop s.pos).take v) = some y →
      (∀ k, w = .name k →
        exec x s = .next { s with pos := s.pos + v, pass := some (.str (.value k y)) }) ∧
      (∀ k name, w = .value k name → k ≠ .linc →
        exec x s = .next
          { s with pos := s.pos + v, suok := false, out := s.out ++ [.ok ⟨name, y⟩], pass := some .rep }) ∧
      (∀ name, w = .value .linc name →
        exec x s = .next
          { s with
            pos := s.pos + v, suok := false, out := s.out ++ [.ok ⟨name, y⟩]
            dt := inserted s.mts.toNat ⟨name, y⟩ s.dt, pass := some .rep }))

/-- A unit that is no Huffman string does not depend on `HUFF` (R174): changing which decoder is plugged in changes its
outcome in nothing else. -/
def Obligations.OnlyHuffmanStringsDependOnHuff : Prop :=
  ∀ (x : Instr) (s t : State) (f : HuffSel),
    (∀ l, x ≠ .strHuf l) → (∀ w acc m, s.pass ≠ some (.cont (.strLen true w) acc m)) → exec x s = .next t →
    exec x { s with cfg := { s.cfg with huff := f } } = .next { t with cfg := { t.cfg with huff := f } }

/-- The standard instantiation decodes every symbol's code (R172, R173): after the code's bits the decoder has output the
symbol's octet and starts afresh; after EOS it fails. A statement about the spec's general-knowledge table (log 6). -/
def Obligations.HuffmanCodesDecode : Prop :=
  ∀ (symbol code len : Nat) (rest : List Bool) (out : Bytes), huffTable[symbol]? = some (code, len) →
    (symbol < 256 → huffBits (codeBits code len ++ rest) 0 0 out = huffBits rest 0 0 (BitVec.ofNat 8 symbol :: out)) ∧
    (symbol = 256 → huffBits (codeBits code len ++ rest) 0 0 out = none)

/-! ## The tables -/

/-- `Lookup` (R125, R53): 1 to 61 are the static rows, 62 + k is the k-th newest dynamic entry with its value, and
anything above is no entry. -/
def Obligations.LookupIsStaticThenDynamic : Prop :=
  ∀ (i : Nat) (dt : List Header), 1 ≤ i →
    (i ≤ 61 → lookup i dt = staticTable[i - 1]? ∧ (lookup i dt).isSome = true) ∧
    (∀ k h, i = 62 + k → dt[k]? = some h → lookup i dt = some ⟨h.name, some h.value⟩) ∧
    (61 + dt.length < i → lookup i dt = none)

/-- The static table: 61 rows, the two rows the source gives (R160, R161), and the static indices with a value, 2 to 14
and 16 (R142, R162; the rows other than 2 and 8 are the spec's general knowledge, log 7). -/
def Obligations.StaticTableRows : Prop :=
  staticTable.length = 61 ∧
  lookup 2 [] = some ⟨ascii ":method", some (ascii "GET")⟩ ∧
  lookup 8 [] = some ⟨ascii ":status", some (ascii "200")⟩ ∧
  (List.range 62).filter (fun i => 1 ≤ i ∧ ((lookup i []).bind Entry.value).isSome) =
    [2, 3, 4, 5, 6, 7, 8, 9, 10, 11, 12, 13, 14, 16]

/-- Eviction, with the bound of `EvictTo` or the possibly negative one of `Insert` (R128, R127): what is left is the
longest run of newest entries whose size is within the bound, and the empty table where no run is. `EvictTo` writes DT
only. -/
def Obligations.EvictionKeepsTheNewest : Prop :=
  (∀ (n : Nat) (s : State), evictTo n s = { s with dt := evict n s.dt }) ∧
  ∀ (bound : Int) (dt : List Header),
    (∃ k, k ≤ dt.length ∧ evict bound dt = dt.take k ∧ (k = 0 ∨ (tableSize (dt.take k) : Int) ≤ bound) ∧
      ∀ j, k < j → j ≤ dt.length → bound < (tableSize (dt.take j) : Int))

/-- `Insert` (R127) writes DT only: an entry larger than `MTS` empties the table and is not kept; another is put in front
of the entries left by the eviction to `MTS - s`, `SIZE(DT) <= MTS` holds after, and it is the entry of index 62. -/
def Obligations.InsertionPolicy : Prop :=
  (∀ (h : Header) (s : State), Machine.insert h s = { s with dt := inserted s.mts.toNat h s.dt }) ∧
  ∀ (mts : Nat) (h : Header) (dt : List Header),
    tableSize (inserted mts h dt) ≤ mts ∧
    (mts < h.name.length + h.value.length + 32 → inserted mts h dt = []) ∧
    (h.name.length + h.value.length + 32 ≤ mts →
      inserted mts h dt = h :: evict ((mts : Int) - (h.name.length + h.value.length + 32 : Nat)) dt ∧
      lookup 62 (inserted mts h dt) = some ⟨h.name, some h.value⟩)

/-! ## The representations -/

/-- `IDX` (R142) once its index `v` is known, by its first byte or by its last continuation byte: 0 is `H_INDEX_ZERO`, an
index beyond both tables `H_INDEX_RANGE`, a static row without value `H_NO_VALUE`, else the entry is emitted and
`SUOK <- 0`. The dynamic table is not changed. The units are `idx` and, for a continued index, `intLast`. -/
def Obligations.IndexedField : Prop :=
  ∀ (x : Instr) (s : State) (v : Nat), Delivers .index x s v →
    (v = 0 → exec x s = .next (failed .hIndexZero s)) ∧
    (61 + s.dt.length < v → exec x s = .next (failed .hIndexRange s)) ∧
    (∀ name, 1 ≤ v → v ≤ 61 → staticTable[v - 1]? = some ⟨name, none⟩ →
      exec x s = .next (failed .hNoValue s)) ∧
    (∀ name value, 1 ≤ v → v ≤ 61 → staticTable[v - 1]? = some ⟨name, some value⟩ →
      exec x s = .next { s with suok := false, out := s.out ++ [.ok ⟨name, value⟩], pass := some .rep }) ∧
    (∀ h, 62 ≤ v → s.dt[v - 62]? = some h →
      exec x s = .next { s with suok := false, out := s.out ++ [.ok h], pass := some .rep })

/-- The name of a literal (R130, R143 to R145) once its name index `v` is known: 0 is a following name string, a static
or dynamic entry gives its name whether or not it has a value, anything above is `H_INDEX_RANGE`. The units
are `lincN`, `lincI`, `lnoidxN`, `lnoidxI`, `lneverN`, `lneverI` and, for a continued index, `intLast`. -/
def Obligations.LiteralName : Prop :=
  ∀ (x : Instr) (s : State) (k : LitKind) (v : Nat), Delivers (.nameIndex k) x s v →
    (v = 0 → exec x s = .next { s with pass := some (.str (.name k)) }) ∧
    (∀ e, 1 ≤ v → v ≤ 61 → staticTable[v - 1]? = some e →
      exec x s = .next { s with pass := some (.str (.value k e.name)) }) ∧
    (∀ h, 62 ≤ v → s.dt[v - 62]? = some h →
      exec x s = .next { s with pass := some (.str (.value k h.name)) }) ∧
    (61 + s.dt.length < v → exec x s = .next (failed .hIndexRange s))

/-- `DTSU` (R146) once its new size `v` is known: above CMAX it is `H_SIZE_EXCEEDS` (R211); else `MTS <- v` (the spec's
decision D8) and the table is evicted to `v` (R128); `SUOK` stays and nothing is emitted. The units are `dtsu` and, for a continued size, `intLast`. -/
def Obligations.SizeUpdate : Prop :=
  ∀ (x : Instr) (s : State) (v : Nat), Delivers .newSize x s v →
    (s.cmax.toNat < v → exec x s = .next (failed .hSizeExceeds s)) ∧
    (v ≤ s.cmax.toNat →
      exec x s = .next { s with mts := BitVec.ofNat 32 v, dt := evict v s.dt, pass := some .rep } ∧
      (BitVec.ofNat 32 v).toNat = v ∧ tableSize (evict v s.dt) ≤ v)

/-- A size update after a field representation (R146, R210): `H_SIZE_LATE` whatever its operand, before the integer is
read; `MTS` and `DT` are unchanged. That `SUOK` is tested before the integer is decoded is the spec's decision D22, so the
label is advisory where another cause holds too (R217, log 12). -/
def Obligations.LateSizeUpdate : Prop :=
  ∀ (s : State) (n : BitVec 5), s.nc = false → s.pass = some .rep → s.suok = false →
    exec (.dtsu n) s = .next (failed .hSizeLate s)

/-- Frame of the units of a pass, whatever the outcome (R106, R148): the frame codec's registers, CMAX, FRAG and the
host's operations are unchanged; OUT only grows, by at most one item; NC is set only with an error as the last item. -/
def Obligations.PassUnitsFrame : Prop :=
  ∀ (x : Instr) (s t : State), x.slot ≠ .frame → exec x s = .next t →
    t.ib = s.ib ∧ t.phase = s.phase ∧ t.ph = s.ph ∧ t.maxf = s.maxf ∧ t.fq = s.fq ∧ t.cmax = s.cmax ∧
    t.frag = s.frag ∧ t.ackDue = s.ackDue ∧ t.ret = s.ret ∧ t.host = s.host ∧ t.cfg = s.cfg ∧
    (t.out = s.out ∧ t.nc = s.nc ∨
      (∃ h, t.out = s.out ++ [.ok h] ∧ t.nc = s.nc ∧ t.suok = false) ∨
      ∃ k, t.out = s.out ++ [.err k] ∧ t.nc = true)

/-- Which units may change the dynamic table and its bound, in any state (R27, R29, R142 to R146, R218): MTS only a size
update, DT only a size update or the string that ends a literal with incremental indexing; with an error neither. -/
def Obligations.TableWriters : Prop :=
  ∀ (x : Instr) (s t : State), exec x s = .next t →
    (t.mts ≠ s.mts →
      (∃ n, x = .dtsu n) ∨ ∃ g acc m, x = .intLast g ∧ s.pass = some (.cont .newSize acc m)) ∧
    (t.dt ≠ s.dt →
      (∃ n, x = .dtsu n) ∨ (∃ g acc m, x = .intLast g ∧ s.pass = some (.cont .newSize acc m)) ∨
      (∃ name, s.pass = some (.str (.value .linc name))) ∨
      ∃ g f name acc m, x = .intLast g ∧ s.pass = some (.cont (.strLen f (.value .linc name)) acc m)) ∧
    (s.nc = false → t.nc = true → t.dt = s.dt ∧ t.mts = s.mts)

/-! ## The decode pass -/

/-- `DECODE_BLOCK` at the host's turn, in either phase (R140, R186): the pass starts over the fragment at cursor 0 with `SUOK = 1`
and `OUT` empty; `DT` and `MTS` carry over from the pass before (R148). With `NC = 1` it is refused (R220). -/
def Obligations.DecodeBlockStartsAPass : Prop :=
  ∀ (s : State) (frag : Bytes) (ops : List HostOp), s.host = .decodeBlock frag :: ops →
    (s.nc = false → HostsTurn s →
      step s = .next
        { s with frag := frag, pos := 0, suok := true, out := [], pass := some .rep, host := ops }) ∧
    (s.nc = true → step s = .refused .afterClose)

/-- A pass always ends (R246 a, R245): within one step more than the fragment has bytes, either at the end of the
fragment with every item `ok` and `NC = 0`, or with an error as the last item, every other `ok`, and `NC = 1`. -/
def Obligations.EveryPassEnds : Prop :=
  ∀ (s : State) (frag : Bytes), s.nc = false →
    ∃ n t, n ≤ frag.length + 1 ∧ runSteps n (s.startPass frag) = .next t ∧ t.pass = none ∧ t.frag = frag ∧
      ((t.nc = false ∧ t.pos = frag.length ∧ ∃ hs : List Header, t.out = hs.map Item.ok) ∨
       (t.nc = true ∧ ∃ (hs : List Header) (k : Cause), t.out = hs.map Item.ok ++ [.err k]))

/-- The machine's pass and the spec's pseudocode end in the same state (R140 to R146, R120 to R130): the units run one
by one leave exactly what `DECODE_BLOCK` written as one recursive function leaves, the cause label included: in a tie it is
the first the pseudocode reaches (R217, the spec's decisions D15, D22, D26; log 12). -/
def Obligations.PassRunsThePseudocode : Prop :=
  ∀ (s : State) (frag : Bytes), s.nc = false →
    ∃ n, n ≤ frag.length + 1 ∧ runSteps n (s.startPass frag) = .next (decodeBlock frag s)

/-! ## Frames -/

/-- `FH_PARSE` (R100): with fewer than 9 bytes none, and nothing is taken; else the record of the first nine bytes,
big-endian, the reserved bit stripped from the stream id, `failure` exactly when that bit is 1 or the length exceeds MAXF,
and the bytes after the nine are left. -/
def Obligations.HeaderParse : Prop :=
  ∀ maxf : Word,
    (∀ ib : Bytes, ib.length < 9 → fhParse maxf ib = none) ∧
    ∀ (h0 h1 h2 h3 h4 h5 h6 h7 h8 : Byte) (rest : Bytes),
      ∃ h : FrameHeader,
        fhParse maxf (h0 :: h1 :: h2 :: h3 :: h4 :: h5 :: h6 :: h7 :: h8 :: rest) = some (h, rest) ∧
        h.length.toNat = h0.toNat * 65536 + h1.toNat * 256 + h2.toNat ∧ h.type = h3 ∧ h.flags = h4 ∧
        h.streamId.toNat + (h5.getLsbD 7).toNat * 2 ^ 31 =
          h5.toNat * 2 ^ 24 + h6.toNat * 2 ^ 16 + h7.toNat * 2 ^ 8 + h8.toNat ∧
        (h.failure = true ↔ h5.getLsbD 7 = true ∨ maxf.toNat < h.length.toNat)

/-- `FB_PARSE` (R101, R58): all `length` bytes or none, and the bytes beyond them stay. -/
def Obligations.BodyParse : Prop :=
  ∀ (h : FrameHeader) (ib : Bytes),
    (ib.length < h.length.toNat → fbParse h ib = none) ∧
    (h.length.toNat ≤ ib.length →
      fbParse h ib = some (ib.take h.length.toNat, ib.drop h.length.toNat))

/-- The sequencer's `STEP` in phase FH (R103, R214) and its unit `FRAME_HDR`: with fewer than 9 bytes and nothing from
the host it suspends; a failing header sets NC, its 9 bytes gone, and changes nothing else; another is kept as PH and the
phase becomes FB. -/
def Obligations.FrameHeaderIsAcceptedOrFatal : Prop :=
  ∀ s : State, s.nc = false → s.pass = none → s.phase = .fh → s.ackDue = false →
    (s.ib.length < 9 → s.host = [] → step s = .next s) ∧
    ∀ (len : BitVec 24) (type flags : BitVec 8) (r : Bool) (sid : BitVec 31),
      (r = true ∨ s.maxf.toNat < len.toNat →
        exec (.frameHdr len type flags r sid) s = .next { s with nc := true } ∧
        ∀ rest, decode .frame s.ib = .ok (.frameHdr len type flags r sid, rest) →
          step s = .next { s with ib := rest, nc := true }) ∧
      (r = false → len.toNat ≤ s.maxf.toNat →
        exec (.frameHdr len type flags r sid) s =
          .next { s with ph := some ⟨len, type, flags, sid, false⟩, phase := .fb } ∧
        ∀ rest, decode .frame s.ib = .ok (.frameHdr len type flags r sid, rest) →
          step s = .next { s with ib := rest, ph := some ⟨len, type, flags, sid, false⟩, phase := .fb })

/-- The sequencer's `STEP` in phase FB (R104): with the payload whole in IB the pair is delivered, PH is cleared, the
phase is FH, and the host's reaction is due (`ackDue`, the model's form of R185, log 3); with less and nothing from the host
it suspends. -/
def Obligations.CompletedFrameIsDelivered : Prop :=
  ∀ (s : State) (h : FrameHeader), s.nc = false → s.pass = none → s.ackDue = false → s.phase = .fb →
    s.ph = some h → h.failure = false →
    (h.length.toNat ≤ s.ib.length →
      step s = .next
        { s with
          ib := s.ib.drop h.length.toNat, ph := none, phase := .fh, ackDue := true
          fq := s.fq ++ [(h, s.ib.take h.length.toNat)] }) ∧
    (s.ib.length < h.length.toNat → s.host = [] → step s = .next s)

/-- The sequencer suspends (R103, R104, R105): with no unit complete, no pass and nothing from the host, a step changes
nothing; nor does it while a delivered frame awaits the host. -/
def Obligations.SequencerSuspends : Prop :=
  ∀ s : State, s.nc = false → s.pass = none → s.host = [] →
    (s.ackDue = true ∨ s.phase = .fh ∧ s.ib.length < 9 ∨
      ∃ h, s.phase = .fb ∧ s.ph = some h ∧ h.failure = false ∧ s.ib.length < h.length.toNat) →
    step s = .next s

/-- The machine's step is the sequencer's `STEP` whenever that is enabled (R105, R103, R104). -/
def Obligations.StepIsTheSequencerStep : Prop :=
  ∀ s : State, s.Inv → s.pass = none → s.ackDue = false → stepEnabled s = true → step s = .next (sequencerStep s)

/-- `RUN` ends within R105's bound, from every state: after 2 * floor(len(IB) / 9) + 1 turns no step is enabled. This is
RUN with a host that only acknowledges each delivered frame (`runSequencer`, log 3), not with the other reactions that
R105 and R185 allow. -/
def Obligations.RunDrainsWithinTheBound : Prop :=
  ∀ s : State, stepEnabled (runSequencer s) = false

/-- The law of `FRAME_ENCODE` (R102): feeding an encoded frame of a length within MAXF to a block at rest delivers exactly
that frame in three steps. -/
def Obligations.EncodedFrameIsDelivered : Prop :=
  ∀ (s : State) (len : BitVec 24) (type flags : BitVec 8) (sid : BitVec 31) (payload : Bytes) (ops : List HostOp),
    s.nc = false → s.pass = none → s.ackDue = false → s.phase = .fh → s.ib = [] → s.cfg.ibCap = none →
    payload.length = len.toNat → len.toNat ≤ s.maxf.toNat →
    s.host = .feed (frameEncode len type flags sid payload) :: ops →
    runSteps 3 s = .next
      { s with ph := none, fq := s.fq ++ [(⟨len, type, flags, sid, false⟩, payload)], ackDue := true, host := ops }

/-- Chunk-boundary independence (R67): however a byte sequence is cut, `FEED; RUN` of the chunks one after another and of
the whole at once deliver the same frames and agree on everything but the bytes left in IB; those agree too unless NC
was set, when later chunks are discarded (R181, log 13). The host only acknowledges the frames (log 3), and IB is taken as
unbounded: `feedAndRun` does not look at IB_CAP (log 8). -/
def Obligations.ChunkBoundariesDoNotMatter : Prop :=
  ∀ (s : State) (chunks : List Bytes), stepEnabled s = false →
    let a := chunks.foldl feedAndRun s
    let b := feedAndRun s chunks.flatten
    (a.nc = false → a = b) ∧ ∃ lost, b = { a with ib := a.ib ++ lost }

/-! ## The host's operations -/

/-- `FEED`, `SET_MAXF`, `SET_CMAX`, `SET_NC` at the host's turn, in either phase (R181 to R184), and the end of its reaction
(`ack`, log 3): each changes its own place and nothing else; IB has room for the chunk (R12). So the rest of a payload is
appended while the body is awaited (R38). -/
def Obligations.HostWrites : Prop :=
  ∀ (s : State) (ops : List HostOp), s.nc = false → HostsTurn s →
    (∀ chunk, s.host = .feed chunk :: ops → (∀ cap, s.cfg.ibCap = some cap → s.ib.length + chunk.length ≤ cap) →
      step s = .next { s with ib := s.ib ++ chunk, host := ops }) ∧
    (∀ v, s.host = .setMaxf v :: ops → step s = .next { s with maxf := v, host := ops }) ∧
    (∀ v, s.host = .setCmax v :: ops → step s = .next { s with cmax := v, host := ops }) ∧
    (s.host = .setNc :: ops → step s = .next { s with nc := true, host := ops }) ∧
    (s.host = .ack :: ops → step s = .next { s with ackDue := false, host := ops })

/-- A chunk that does not fit a finite `IB_CAP` stalls, in either phase: the operation stays pending and no byte is dropped
(R12, R181). -/
def Obligations.FullBufferStallsFeed : Prop :=
  ∀ (s : State) (chunk : Bytes) (ops : List HostOp) (cap : Nat), s.nc = false → HostsTurn s →
    s.host = .feed chunk :: ops → s.cfg.ibCap = some cap → cap < s.ib.length + chunk.length → step s = .next s

/-- `FH_PARSE` and `FB_PARSE` called by the host at its turn, in either phase (R100, R101, R180): the bytes are taken from
IB and the answer is returned (in `ret`, the model's own field, log 4), the sequencer's registers are untouched; a failing
header is refused (R220 a). While a body is awaited the header of the next nine bytes can be taken (the order is the
host's duty: R238). -/
def Obligations.DirectParseCalls : Prop :=
  ∀ (s : State) (ops : List HostOp), s.nc = false → HostsTurn s →
    (s.host = .fhParse :: ops →
      (s.ib.length < 9 → step s = .next { s with ret := .header none, host := ops }) ∧
      (∀ h rest, fhParse s.maxf s.ib = some (h, rest) →
        step s = .next { s with ib := rest, ret := .header (some h), host := ops })) ∧
    (∀ h, s.host = .fbParse h :: ops →
      (h.failure = true → step s = .refused .failingHeader) ∧
      (h.failure = false → s.ib.length < h.length.toNat →
        step s = .next { s with ret := .body none, host := ops }) ∧
      (h.failure = false → h.length.toNat ≤ s.ib.length →
        step s = .next
          { s with
            ib := s.ib.drop h.length.toNat, ret := .body (some (s.ib.take h.length.toNat)), host := ops }))

/-- The word of an opcode-table row placed by `withFetchWord` is the unit the next step runs, from every state. -/
def Obligations.PlacedWordRuns : Prop :=
  ∀ (s : State) (w : Nat),
    step (s.withFetchWord 8 w) =
      exec (decodeRep (BitVec.ofNat 8 w)) { s.withFetchWord 8 w with pos := 1 } ∧
    ∃ i, decodeTableWord 72 w = some i ∧
      step (s.withFetchWord 72 w) = exec i { s.withFetchWord 72 w with ib := s.ib.drop 9 }
end

