-- ==== Sys2Proof/Laws/Codec.lean ====
section
/-! SUPPORT. The lemmas of the decoder and the encoder: what each place reads of an octet built from its fields, and the
fields of the nine header bytes. -/

namespace Sys2Proof

/-! ## Octets -/

theorem decodeRep_idx : ∀ i : BitVec 7, decodeRep (1#1 ++ i) = .idx i := by decide
theorem decodeRep_lincN : decodeRep 0b01000000#8 = .lincN := by decide
theorem decodeRep_lincI : ∀ i : BitVec 6, i ≠ 0 → decodeRep (0b01#2 ++ i) = .lincI i := by decide
theorem decodeRep_lnoidxN : decodeRep 0b00000000#8 = .lnoidxN := by decide
theorem decodeRep_lnoidxI : ∀ i : BitVec 4, i ≠ 0 → decodeRep (0b0000#4 ++ i) = .lnoidxI i := by decide
theorem decodeRep_lneverN : decodeRep 0b00010000#8 = .lneverN := by decide
theorem decodeRep_lneverI : ∀ i : BitVec 4, i ≠ 0 → decodeRep (0b0001#4 ++ i) = .lneverI i := by decide
theorem decodeRep_dtsu : ∀ n : BitVec 5, decodeRep (0b001#3 ++ n) = .dtsu n := by decide
theorem decodeStr_raw : ∀ l : BitVec 7, decodeStr (0#1 ++ l) = .strRaw l := by decide
theorem decodeStr_huf : ∀ l : BitVec 7, decodeStr (1#1 ++ l) = .strHuf l := by decide
theorem decodeCont_cont : ∀ g : BitVec 7, decodeCont (1#1 ++ g) = .intCont g := by decide
theorem decodeCont_last : ∀ g : BitVec 7, decodeCont (0#1 ++ g) = .intLast g := by decide

/-- Every octet is a well-formed unit of the place it is read in, and is its encoding. -/
theorem decodeOctet_spec : ∀ (c : Ctx) (b : Byte),
    (decodeOctet c b).wf = true ∧ (decodeOctet c b).slot = .octet c ∧ encode (decodeOctet c b) = [b] := by
  intro c
  cases c <;> decide +kernel

/-! ## The frame header -/

theorem append_extract_top (a b c : Byte) : (a ++ b ++ c : BitVec 24).extractLsb' 16 8 = a := by
  ext i hi; simp; grind
theorem append_extract_mid (a b c : Byte) : (a ++ b ++ c : BitVec 24).extractLsb' 8 8 = b := by
  ext i hi; simp; grind
theorem append_extract_low (a b c : Byte) : (a ++ b ++ c : BitVec 24).extractLsb' 0 8 = c := by
  ext i hi; simp; grind
theorem extract_append_24 (x : BitVec 24) : x.extractLsb' 16 8 ++ x.extractLsb' 8 8 ++ x.extractLsb' 0 8 = x := by
  rw [BitVec.extractLsb'_append_extractLsb'_eq_extractLsb' (by rfl),
    BitVec.extractLsb'_append_extractLsb'_eq_extractLsb' (by rfl)]
  simp

theorem flag_append_msb : ∀ (r : Bool) (x : BitVec 7), (BitVec.ofBool r ++ x : BitVec 8).getLsbD 7 = r := by decide
theorem flag_append_low : ∀ (r : Bool) (x : BitVec 7), (BitVec.ofBool r ++ x : BitVec 8).extractLsb' 0 7 = x := by
  decide
theorem flag_append_self : ∀ b : Byte, BitVec.ofBool (b.getLsbD 7) ++ b.extractLsb' 0 7 = b := by decide

theorem stream_extract_24 (a : BitVec 7) (b c d : Byte) : (a ++ b ++ c ++ d : BitVec 31).extractLsb' 24 7 = a := by
  ext i hi; simp; grind
theorem stream_extract_16 (a : BitVec 7) (b c d : Byte) : (a ++ b ++ c ++ d : BitVec 31).extractLsb' 16 8 = b := by
  ext i hi; simp; grind
theorem stream_extract_8 (a : BitVec 7) (b c d : Byte) : (a ++ b ++ c ++ d : BitVec 31).extractLsb' 8 8 = c := by
  ext i hi; simp; grind
theorem stream_extract_0 (a : BitVec 7) (b c d : Byte) : (a ++ b ++ c ++ d : BitVec 31).extractLsb' 0 8 = d := by
  ext i hi; simp; grind
theorem extract_append_31 (x : BitVec 31) :
    x.extractLsb' 24 7 ++ x.extractLsb' 16 8 ++ x.extractLsb' 8 8 ++ x.extractLsb' 0 8 = x := by
  rw [BitVec.extractLsb'_append_extractLsb'_eq_extractLsb' (by rfl),
    BitVec.extractLsb'_append_extractLsb'_eq_extractLsb' (by rfl),
    BitVec.extractLsb'_append_extractLsb'_eq_extractLsb' (by rfl)]
  simp

/-- The nine bytes of a header decode to its fields. -/
theorem decode_headerBytes (len : BitVec 24) (type flags : BitVec 8) (r : Bool) (sid : BitVec 31) (rest : Bytes) :
    decode .frame (headerBytes len type flags r sid ++ rest) = .ok (.frameHdr len type flags r sid, rest) := by
  simp only [headerBytes, List.cons_append, List.nil_append, decode, decodeHeader]
  rw [flag_append_msb, flag_append_low, extract_append_24, extract_append_31]

/-- The fields of nine bytes encode to those bytes. -/
theorem encode_decodeHeader (h0 h1 h2 h3 h4 h5 h6 h7 h8 : Byte) :
    encode (decodeHeader h0 h1 h2 h3 h4 h5 h6 h7 h8) = [h0, h1, h2, h3, h4, h5, h6, h7, h8] := by
  simp only [decodeHeader, encode, headerBytes]
  rw [append_extract_top, append_extract_mid, append_extract_low, stream_extract_24, stream_extract_16,
    stream_extract_8, stream_extract_0, flag_append_self]

/-- What a buffer gives in phase FH: a header and the bytes after its nine, or too few bytes (R58). -/
theorem decode_frame_cases (bytes : Bytes) :
    (9 ≤ bytes.length ∧ ∃ len type flags r sid,
      decode .frame bytes = .ok (.frameHdr len type flags r sid, bytes.drop 9)) ∨
    (bytes.length < 9 ∧ decode .frame bytes = .error .headerShort) := by
  match bytes with
  | h0 :: h1 :: h2 :: h3 :: h4 :: h5 :: h6 :: h7 :: h8 :: rest => exact .inl ⟨by simp, _, _, _, _, _, rfl⟩
  | [] | [_] | [_, _] | [_, _, _] | [_, _, _, _] | [_, _, _, _, _] | [_, _, _, _, _, _] | [_, _, _, _, _, _, _]
  | [_, _, _, _, _, _, _, _] => exact .inr ⟨by simp, rfl⟩

end Sys2Proof
end

