-- ==== Sys2Proof/Laws/State.lean ====
section
/-! SUPPORT. One lemma per field of State per named update, so that no proof unfolds a record update. -/

namespace Sys2Proof.Machine

variable (s : State)

@[simp] theorem State.setIb_ib (b : Bytes) : (s.setIb b).ib = b := rfl
@[simp] theorem State.setIb_phase (b : Bytes) : (s.setIb b).phase = s.phase := rfl
@[simp] theorem State.setIb_ph (b : Bytes) : (s.setIb b).ph = s.ph := rfl
@[simp] theorem State.setIb_maxf (b : Bytes) : (s.setIb b).maxf = s.maxf := rfl
@[simp] theorem State.setIb_nc (b : Bytes) : (s.setIb b).nc = s.nc := rfl
@[simp] theorem State.setIb_fq (b : Bytes) : (s.setIb b).fq = s.fq := rfl
@[simp] theorem State.setIb_dt (b : Bytes) : (s.setIb b).dt = s.dt := rfl
@[simp] theorem State.setIb_mts (b : Bytes) : (s.setIb b).mts = s.mts := rfl
@[simp] theorem State.setIb_cmax (b : Bytes) : (s.setIb b).cmax = s.cmax := rfl
@[simp] theorem State.setIb_frag (b : Bytes) : (s.setIb b).frag = s.frag := rfl
@[simp] theorem State.setIb_pos (b : Bytes) : (s.setIb b).pos = s.pos := rfl
@[simp] theorem State.setIb_suok (b : Bytes) : (s.setIb b).suok = s.suok := rfl
@[simp] theorem State.setIb_out (b : Bytes) : (s.setIb b).out = s.out := rfl
@[simp] theorem State.setIb_pass (b : Bytes) : (s.setIb b).pass = s.pass := rfl
@[simp] theorem State.setIb_ackDue (b : Bytes) : (s.setIb b).ackDue = s.ackDue := rfl
@[simp] theorem State.setIb_ret (b : Bytes) : (s.setIb b).ret = s.ret := rfl
@[simp] theorem State.setIb_host (b : Bytes) : (s.setIb b).host = s.host := rfl
@[simp] theorem State.setIb_cfg (b : Bytes) : (s.setIb b).cfg = s.cfg := rfl

@[simp] theorem State.awaitBody_ib (h : FrameHeader) : (s.awaitBody h).ib = s.ib := rfl
@[simp] theorem State.awaitBody_phase (h : FrameHeader) : (s.awaitBody h).phase = .fb := rfl
@[simp] theorem State.awaitBody_ph (h : FrameHeader) : (s.awaitBody h).ph = some h := rfl
@[simp] theorem State.awaitBody_maxf (h : FrameHeader) : (s.awaitBody h).maxf = s.maxf := rfl
@[simp] theorem State.awaitBody_nc (h : FrameHeader) : (s.awaitBody h).nc = s.nc := rfl
@[simp] theorem State.awaitBody_fq (h : FrameHeader) : (s.awaitBody h).fq = s.fq := rfl
@[simp] theorem State.awaitBody_dt (h : FrameHeader) : (s.awaitBody h).dt = s.dt := rfl
@[simp] theorem State.awaitBody_mts (h : FrameHeader) : (s.awaitBody h).mts = s.mts := rfl
@[simp] theorem State.awaitBody_cmax (h : FrameHeader) : (s.awaitBody h).cmax = s.cmax := rfl
@[simp] theorem State.awaitBody_frag (h : FrameHeader) : (s.awaitBody h).frag = s.frag := rfl
@[simp] theorem State.awaitBody_pos (h : FrameHeader) : (s.awaitBody h).pos = s.pos := rfl
@[simp] theorem State.awaitBody_suok (h : FrameHeader) : (s.awaitBody h).suok = s.suok := rfl
@[simp] theorem State.awaitBody_out (h : FrameHeader) : (s.awaitBody h).out = s.out := rfl
@[simp] theorem State.awaitBody_pass (h : FrameHeader) : (s.awaitBody h).pass = s.pass := rfl
@[simp] theorem State.awaitBody_ackDue (h : FrameHeader) : (s.awaitBody h).ackDue = s.ackDue := rfl
@[simp] theorem State.awaitBody_ret (h : FrameHeader) : (s.awaitBody h).ret = s.ret := rfl
@[simp] theorem State.awaitBody_host (h : FrameHeader) : (s.awaitBody h).host = s.host := rfl
@[simp] theorem State.awaitBody_cfg (h : FrameHeader) : (s.awaitBody h).cfg = s.cfg := rfl

@[simp] theorem State.deliver_ib (h : FrameHeader) (p : Bytes) : (s.deliver h p).ib = s.ib := rfl
@[simp] theorem State.deliver_phase (h : FrameHeader) (p : Bytes) : (s.deliver h p).phase = .fh := rfl
@[simp] theorem State.deliver_ph (h : FrameHeader) (p : Bytes) : (s.deliver h p).ph = none := rfl
@[simp] theorem State.deliver_maxf (h : FrameHeader) (p : Bytes) : (s.deliver h p).maxf = s.maxf := rfl
@[simp] theorem State.deliver_nc (h : FrameHeader) (p : Bytes) : (s.deliver h p).nc = s.nc := rfl
@[simp] theorem State.deliver_fq (h : FrameHeader) (p : Bytes) : (s.deliver h p).fq = s.fq ++ [(h, p)] := rfl
@[simp] theorem State.deliver_dt (h : FrameHeader) (p : Bytes) : (s.deliver h p).dt = s.dt := rfl
@[simp] theorem State.deliver_mts (h : FrameHeader) (p : Bytes) : (s.deliver h p).mts = s.mts := rfl
@[simp] theorem State.deliver_cmax (h : FrameHeader) (p : Bytes) : (s.deliver h p).cmax = s.cmax := rfl
@[simp] theorem State.deliver_frag (h : FrameHeader) (p : Bytes) : (s.deliver h p).frag = s.frag := rfl
@[simp] theorem State.deliver_pos (h : FrameHeader) (p : Bytes) : (s.deliver h p).pos = s.pos := rfl
@[simp] theorem State.deliver_suok (h : FrameHeader) (p : Bytes) : (s.deliver h p).suok = s.suok := rfl
@[simp] theorem State.deliver_out (h : FrameHeader) (p : Bytes) : (s.deliver h p).out = s.out := rfl
@[simp] theorem State.deliver_pass (h : FrameHeader) (p : Bytes) : (s.deliver h p).pass = s.pass := rfl
@[simp] theorem State.deliver_ackDue (h : FrameHeader) (p : Bytes) : (s.deliver h p).ackDue = true := rfl
@[simp] theorem State.deliver_ret (h : FrameHeader) (p : Bytes) : (s.deliver h p).ret = s.ret := rfl
@[simp] theorem State.deliver_host (h : FrameHeader) (p : Bytes) : (s.deliver h p).host = s.host := rfl
@[simp] theorem State.deliver_cfg (h : FrameHeader) (p : Bytes) : (s.deliver h p).cfg = s.cfg := rfl

@[simp] theorem State.setMaxf_ib (v : Word) : (s.setMaxf v).ib = s.ib := rfl
@[simp] theorem State.setMaxf_phase (v : Word) : (s.setMaxf v).phase = s.phase := rfl
@[simp] theorem State.setMaxf_ph (v : Word) : (s.setMaxf v).ph = s.ph := rfl
@[simp] theorem State.setMaxf_maxf (v : Word) : (s.setMaxf v).maxf = v := rfl
@[simp] theorem State.setMaxf_nc (v : Word) : (s.setMaxf v).nc = s.nc := rfl
@[simp] theorem State.setMaxf_fq (v : Word) : (s.setMaxf v).fq = s.fq := rfl
@[simp] theorem State.setMaxf_dt (v : Word) : (s.setMaxf v).dt = s.dt := rfl
@[simp] theorem State.setMaxf_mts (v : Word) : (s.setMaxf v).mts = s.mts := rfl
@[simp] theorem State.setMaxf_cmax (v : Word) : (s.setMaxf v).cmax = s.cmax := rfl
@[simp] theorem State.setMaxf_frag (v : Word) : (s.setMaxf v).frag = s.frag := rfl
@[simp] theorem State.setMaxf_pos (v : Word) : (s.setMaxf v).pos = s.pos := rfl
@[simp] theorem State.setMaxf_suok (v : Word) : (s.setMaxf v).suok = s.suok := rfl
@[simp] theorem State.setMaxf_out (v : Word) : (s.setMaxf v).out = s.out := rfl
@[simp] theorem State.setMaxf_pass (v : Word) : (s.setMaxf v).pass = s.pass := rfl
@[simp] theorem State.setMaxf_ackDue (v : Word) : (s.setMaxf v).ackDue = s.ackDue := rfl
@[simp] theorem State.setMaxf_ret (v : Word) : (s.setMaxf v).ret = s.ret := rfl
@[simp] theorem State.setMaxf_host (v : Word) : (s.setMaxf v).host = s.host := rfl
@[simp] theorem State.setMaxf_cfg (v : Word) : (s.setMaxf v).cfg = s.cfg := rfl

@[simp] theorem State.setCmax_ib (v : Word) : (s.setCmax v).ib = s.ib := rfl
@[simp] theorem State.setCmax_phase (v : Word) : (s.setCmax v).phase = s.phase := rfl
@[simp] theorem State.setCmax_ph (v : Word) : (s.setCmax v).ph = s.ph := rfl
@[simp] theorem State.setCmax_maxf (v : Word) : (s.setCmax v).maxf = s.maxf := rfl
@[simp] theorem State.setCmax_nc (v : Word) : (s.setCmax v).nc = s.nc := rfl
@[simp] theorem State.setCmax_fq (v : Word) : (s.setCmax v).fq = s.fq := rfl
@[simp] theorem State.setCmax_dt (v : Word) : (s.setCmax v).dt = s.dt := rfl
@[simp] theorem State.setCmax_mts (v : Word) : (s.setCmax v).mts = s.mts := rfl
@[simp] theorem State.setCmax_cmax (v : Word) : (s.setCmax v).cmax = v := rfl
@[simp] theorem State.setCmax_frag (v : Word) : (s.setCmax v).frag = s.frag := rfl
@[simp] theorem State.setCmax_pos (v : Word) : (s.setCmax v).pos = s.pos := rfl
@[simp] theorem State.setCmax_suok (v : Word) : (s.setCmax v).suok = s.suok := rfl
@[simp] theorem State.setCmax_out (v : Word) : (s.setCmax v).out = s.out := rfl
@[simp] theorem State.setCmax_pass (v : Word) : (s.setCmax v).pass = s.pass := rfl
@[simp] theorem State.setCmax_ackDue (v : Word) : (s.setCmax v).ackDue = s.ackDue := rfl
@[simp] theorem State.setCmax_ret (v : Word) : (s.setCmax v).ret = s.ret := rfl
@[simp] theorem State.setCmax_host (v : Word) : (s.setCmax v).host = s.host := rfl
@[simp] theorem State.setCmax_cfg (v : Word) : (s.setCmax v).cfg = s.cfg := rfl

@[simp] theorem State.close_ib : (s.close).ib = s.ib := rfl
@[simp] theorem State.close_phase : (s.close).phase = s.phase := rfl
@[simp] theorem State.close_ph : (s.close).ph = s.ph := rfl
@[simp] theorem State.close_maxf : (s.close).maxf = s.maxf := rfl
@[simp] theorem State.close_nc : (s.close).nc = true := rfl
@[simp] theorem State.close_fq : (s.close).fq = s.fq := rfl
@[simp] theorem State.close_dt : (s.close).dt = s.dt := rfl
@[simp] theorem State.close_mts : (s.close).mts = s.mts := rfl
@[simp] theorem State.close_cmax : (s.close).cmax = s.cmax := rfl
@[simp] theorem State.close_frag : (s.close).frag = s.frag := rfl
@[simp] theorem State.close_pos : (s.close).pos = s.pos := rfl
@[simp] theorem State.close_suok : (s.close).suok = s.suok := rfl
@[simp] theorem State.close_out : (s.close).out = s.out := rfl
@[simp] theorem State.close_pass : (s.close).pass = s.pass := rfl
@[simp] theorem State.close_ackDue : (s.close).ackDue = s.ackDue := rfl
@[simp] theorem State.close_ret : (s.close).ret = s.ret := rfl
@[simp] theorem State.close_host : (s.close).host = s.host := rfl
@[simp] theorem State.close_cfg : (s.close).cfg = s.cfg := rfl

@[simp] theorem State.setDt_ib (d : List Header) : (s.setDt d).ib = s.ib := rfl
@[simp] theorem State.setDt_phase (d : List Header) : (s.setDt d).phase = s.phase := rfl
@[simp] theorem State.setDt_ph (d : List Header) : (s.setDt d).ph = s.ph := rfl
@[simp] theorem State.setDt_maxf (d : List Header) : (s.setDt d).maxf = s.maxf := rfl
@[simp] theorem State.setDt_nc (d : List Header) : (s.setDt d).nc = s.nc := rfl
@[simp] theorem State.setDt_fq (d : List Header) : (s.setDt d).fq = s.fq := rfl
@[simp] theorem State.setDt_dt (d : List Header) : (s.setDt d).dt = d := rfl
@[simp] theorem State.setDt_mts (d : List Header) : (s.setDt d).mts = s.mts := rfl
@[simp] theorem State.setDt_cmax (d : List Header) : (s.setDt d).cmax = s.cmax := rfl
@[simp] theorem State.setDt_frag (d : List Header) : (s.setDt d).frag = s.frag := rfl
@[simp] theorem State.setDt_pos (d : List Header) : (s.setDt d).pos = s.pos := rfl
@[simp] theorem State.setDt_suok (d : List Header) : (s.setDt d).suok = s.suok := rfl
@[simp] theorem State.setDt_out (d : List Header) : (s.setDt d).out = s.out := rfl
@[simp] theorem State.setDt_pass (d : List Header) : (s.setDt d).pass = s.pass := rfl
@[simp] theorem State.setDt_ackDue (d : List Header) : (s.setDt d).ackDue = s.ackDue := rfl
@[simp] theorem State.setDt_ret (d : List Header) : (s.setDt d).ret = s.ret := rfl
@[simp] theorem State.setDt_host (d : List Header) : (s.setDt d).host = s.host := rfl
@[simp] theorem State.setDt_cfg (d : List Header) : (s.setDt d).cfg = s.cfg := rfl

@[simp] theorem State.setMts_ib (v : Word) : (s.setMts v).ib = s.ib := rfl
@[simp] theorem State.setMts_phase (v : Word) : (s.setMts v).phase = s.phase := rfl
@[simp] theorem State.setMts_ph (v : Word) : (s.setMts v).ph = s.ph := rfl
@[simp] theorem State.setMts_maxf (v : Word) : (s.setMts v).maxf = s.maxf := rfl
@[simp] theorem State.setMts_nc (v : Word) : (s.setMts v).nc = s.nc := rfl
@[simp] theorem State.setMts_fq (v : Word) : (s.setMts v).fq = s.fq := rfl
@[simp] theorem State.setMts_dt (v : Word) : (s.setMts v).dt = s.dt := rfl
@[simp] theorem State.setMts_mts (v : Word) : (s.setMts v).mts = v := rfl
@[simp] theorem State.setMts_cmax (v : Word) : (s.setMts v).cmax = s.cmax := rfl
@[simp] theorem State.setMts_frag (v : Word) : (s.setMts v).frag = s.frag := rfl
@[simp] theorem State.setMts_pos (v : Word) : (s.setMts v).pos = s.pos := rfl
@[simp] theorem State.setMts_suok (v : Word) : (s.setMts v).suok = s.suok := rfl
@[simp] theorem State.setMts_out (v : Word) : (s.setMts v).out = s.out := rfl
@[simp] theorem State.setMts_pass (v : Word) : (s.setMts v).pass = s.pass := rfl
@[simp] theorem State.setMts_ackDue (v : Word) : (s.setMts v).ackDue = s.ackDue := rfl
@[simp] theorem State.setMts_ret (v : Word) : (s.setMts v).ret = s.ret := rfl
@[simp] theorem State.setMts_host (v : Word) : (s.setMts v).host = s.host := rfl
@[simp] theorem State.setMts_cfg (v : Word) : (s.setMts v).cfg = s.cfg := rfl

@[simp] theorem State.setPos_ib (p : Nat) : (s.setPos p).ib = s.ib := rfl
@[simp] theorem State.setPos_phase (p : Nat) : (s.setPos p).phase = s.phase := rfl
@[simp] theorem State.setPos_ph (p : Nat) : (s.setPos p).ph = s.ph := rfl
@[simp] theorem State.setPos_maxf (p : Nat) : (s.setPos p).maxf = s.maxf := rfl
@[simp] theorem State.setPos_nc (p : Nat) : (s.setPos p).nc = s.nc := rfl
@[simp] theorem State.setPos_fq (p : Nat) : (s.setPos p).fq = s.fq := rfl
@[simp] theorem State.setPos_dt (p : Nat) : (s.setPos p).dt = s.dt := rfl
@[simp] theorem State.setPos_mts (p : Nat) : (s.setPos p).mts = s.mts := rfl
@[simp] theorem State.setPos_cmax (p : Nat) : (s.setPos p).cmax = s.cmax := rfl
@[simp] theorem State.setPos_frag (p : Nat) : (s.setPos p).frag = s.frag := rfl
@[simp] theorem State.setPos_pos (p : Nat) : (s.setPos p).pos = p := rfl
@[simp] theorem State.setPos_suok (p : Nat) : (s.setPos p).suok = s.suok := rfl
@[simp] theorem State.setPos_out (p : Nat) : (s.setPos p).out = s.out := rfl
@[simp] theorem State.setPos_pass (p : Nat) : (s.setPos p).pass = s.pass := rfl
@[simp] theorem State.setPos_ackDue (p : Nat) : (s.setPos p).ackDue = s.ackDue := rfl
@[simp] theorem State.setPos_ret (p : Nat) : (s.setPos p).ret = s.ret := rfl
@[simp] theorem State.setPos_host (p : Nat) : (s.setPos p).host = s.host := rfl
@[simp] theorem State.setPos_cfg (p : Nat) : (s.setPos p).cfg = s.cfg := rfl

@[simp] theorem State.setWant_ib (w : Want) : (s.setWant w).ib = s.ib := rfl
@[simp] theorem State.setWant_phase (w : Want) : (s.setWant w).phase = s.phase := rfl
@[simp] theorem State.setWant_ph (w : Want) : (s.setWant w).ph = s.ph := rfl
@[simp] theorem State.setWant_maxf (w : Want) : (s.setWant w).maxf = s.maxf := rfl
@[simp] theorem State.setWant_nc (w : Want) : (s.setWant w).nc = s.nc := rfl
@[simp] theorem State.setWant_fq (w : Want) : (s.setWant w).fq = s.fq := rfl
@[simp] theorem State.setWant_dt (w : Want) : (s.setWant w).dt = s.dt := rfl
@[simp] theorem State.setWant_mts (w : Want) : (s.setWant w).mts = s.mts := rfl
@[simp] theorem State.setWant_cmax (w : Want) : (s.setWant w).cmax = s.cmax := rfl
@[simp] theorem State.setWant_frag (w : Want) : (s.setWant w).frag = s.frag := rfl
@[simp] theorem State.setWant_pos (w : Want) : (s.setWant w).pos = s.pos := rfl
@[simp] theorem State.setWant_suok (w : Want) : (s.setWant w).suok = s.suok := rfl
@[simp] theorem State.setWant_out (w : Want) : (s.setWant w).out = s.out := rfl
@[simp] theorem State.setWant_pass (w : Want) : (s.setWant w).pass = some w := rfl
@[simp] theorem State.setWant_ackDue (w : Want) : (s.setWant w).ackDue = s.ackDue := rfl
@[simp] theorem State.setWant_ret (w : Want) : (s.setWant w).ret = s.ret := rfl
@[simp] theorem State.setWant_host (w : Want) : (s.setWant w).host = s.host := rfl
@[simp] theorem State.setWant_cfg (w : Want) : (s.setWant w).cfg = s.cfg := rfl

@[simp] theorem State.endPass_ib : (s.endPass).ib = s.ib := rfl
@[simp] theorem State.endPass_phase : (s.endPass).phase = s.phase := rfl
@[simp] theorem State.endPass_ph : (s.endPass).ph = s.ph := rfl
@[simp] theorem State.endPass_maxf : (s.endPass).maxf = s.maxf := rfl
@[simp] theorem State.endPass_nc : (s.endPass).nc = s.nc := rfl
@[simp] theorem State.endPass_fq : (s.endPass).fq = s.fq := rfl
@[simp] theorem State.endPass_dt : (s.endPass).dt = s.dt := rfl
@[simp] theorem State.endPass_mts : (s.endPass).mts = s.mts := rfl
@[simp] theorem State.endPass_cmax : (s.endPass).cmax = s.cmax := rfl
@[simp] theorem State.endPass_frag : (s.endPass).frag = s.frag := rfl
@[simp] theorem State.endPass_pos : (s.endPass).pos = s.pos := rfl
@[simp] theorem State.endPass_suok : (s.endPass).suok = s.suok := rfl
@[simp] theorem State.endPass_out : (s.endPass).out = s.out := rfl
@[simp] theorem State.endPass_pass : (s.endPass).pass = none := rfl
@[simp] theorem State.endPass_ackDue : (s.endPass).ackDue = s.ackDue := rfl
@[simp] theorem State.endPass_ret : (s.endPass).ret = s.ret := rfl
@[simp] theorem State.endPass_host : (s.endPass).host = s.host := rfl
@[simp] theorem State.endPass_cfg : (s.endPass).cfg = s.cfg := rfl

@[simp] theorem State.clearSuok_ib : (s.clearSuok).ib = s.ib := rfl
@[simp] theorem State.clearSuok_phase : (s.clearSuok).phase = s.phase := rfl
@[simp] theorem State.clearSuok_ph : (s.clearSuok).ph = s.ph := rfl
@[simp] theorem State.clearSuok_maxf : (s.clearSuok).maxf = s.maxf := rfl
@[simp] theorem State.clearSuok_nc : (s.clearSuok).nc = s.nc := rfl
@[simp] theorem State.clearSuok_fq : (s.clearSuok).fq = s.fq := rfl
@[simp] theorem State.clearSuok_dt : (s.clearSuok).dt = s.dt := rfl
@[simp] theorem State.clearSuok_mts : (s.clearSuok).mts = s.mts := rfl
@[simp] theorem State.clearSuok_cmax : (s.clearSuok).cmax = s.cmax := rfl
@[simp] theorem State.clearSuok_frag : (s.clearSuok).frag = s.frag := rfl
@[simp] theorem State.clearSuok_pos : (s.clearSuok).pos = s.pos := rfl
@[simp] theorem State.clearSuok_suok : (s.clearSuok).suok = false := rfl
@[simp] theorem State.clearSuok_out : (s.clearSuok).out = s.out := rfl
@[simp] theorem State.clearSuok_pass : (s.clearSuok).pass = s.pass := rfl
@[simp] theorem State.clearSuok_ackDue : (s.clearSuok).ackDue = s.ackDue := rfl
@[simp] theorem State.clearSuok_ret : (s.clearSuok).ret = s.ret := rfl
@[simp] theorem State.clearSuok_host : (s.clearSuok).host = s.host := rfl
@[simp] theorem State.clearSuok_cfg : (s.clearSuok).cfg = s.cfg := rfl

@[simp] theorem State.emit_ib (x : Item) : (s.emit x).ib = s.ib := rfl
@[simp] theorem State.emit_phase (x : Item) : (s.emit x).phase = s.phase := rfl
@[simp] theorem State.emit_ph (x : Item) : (s.emit x).ph = s.ph := rfl
@[simp] theorem State.emit_maxf (x : Item) : (s.emit x).maxf = s.maxf := rfl
@[simp] theorem State.emit_nc (x : Item) : (s.emit x).nc = s.nc := rfl
@[simp] theorem State.emit_fq (x : Item) : (s.emit x).fq = s.fq := rfl
@[simp] theorem State.emit_dt (x : Item) : (s.emit x).dt = s.dt := rfl
@[simp] theorem State.emit_mts (x : Item) : (s.emit x).mts = s.mts := rfl
@[simp] theorem State.emit_cmax (x : Item) : (s.emit x).cmax = s.cmax := rfl
@[simp] theorem State.emit_frag (x : Item) : (s.emit x).frag = s.frag := rfl
@[simp] theorem State.emit_pos (x : Item) : (s.emit x).pos = s.pos := rfl
@[simp] theorem State.emit_suok (x : Item) : (s.emit x).suok = s.suok := rfl
@[simp] theorem State.emit_out (x : Item) : (s.emit x).out = s.out ++ [x] := rfl
@[simp] theorem State.emit_pass (x : Item) : (s.emit x).pass = s.pass := rfl
@[simp] theorem State.emit_ackDue (x : Item) : (s.emit x).ackDue = s.ackDue := rfl
@[simp] theorem State.emit_ret (x : Item) : (s.emit x).ret = s.ret := rfl
@[simp] theorem State.emit_host (x : Item) : (s.emit x).host = s.host := rfl
@[simp] theorem State.emit_cfg (x : Item) : (s.emit x).cfg = s.cfg := rfl

@[simp] theorem State.startPass_ib (f : Bytes) : (s.startPass f).ib = s.ib := rfl
@[simp] theorem State.startPass_phase (f : Bytes) : (s.startPass f).phase = s.phase := rfl
@[simp] theorem State.startPass_ph (f : Bytes) : (s.startPass f).ph = s.ph := rfl
@[simp] theorem State.startPass_maxf (f : Bytes) : (s.startPass f).maxf = s.maxf := rfl
@[simp] theorem State.startPass_nc (f : Bytes) : (s.startPass f).nc = s.nc := rfl
@[simp] theorem State.startPass_fq (f : Bytes) : (s.startPass f).fq = s.fq := rfl
@[simp] theorem State.startPass_dt (f : Bytes) : (s.startPass f).dt = s.dt := rfl
@[simp] theorem State.startPass_mts (f : Bytes) : (s.startPass f).mts = s.mts := rfl
@[simp] theorem State.startPass_cmax (f : Bytes) : (s.startPass f).cmax = s.cmax := rfl
@[simp] theorem State.startPass_frag (f : Bytes) : (s.startPass f).frag = f := rfl
@[simp] theorem State.startPass_pos (f : Bytes) : (s.startPass f).pos = 0 := rfl
@[simp] theorem State.startPass_suok (f : Bytes) : (s.startPass f).suok = true := rfl
@[simp] theorem State.startPass_out (f : Bytes) : (s.startPass f).out = [] := rfl
@[simp] theorem State.startPass_pass (f : Bytes) : (s.startPass f).pass = some .rep := rfl
@[simp] theorem State.startPass_ackDue (f : Bytes) : (s.startPass f).ackDue = s.ackDue := rfl
@[simp] theorem State.startPass_ret (f : Bytes) : (s.startPass f).ret = s.ret := rfl
@[simp] theorem State.startPass_host (f : Bytes) : (s.startPass f).host = s.host := rfl
@[simp] theorem State.startPass_cfg (f : Bytes) : (s.startPass f).cfg = s.cfg := rfl

@[simp] theorem State.setHost_ib (ops : List HostOp) : (s.setHost ops).ib = s.ib := rfl
@[simp] theorem State.setHost_phase (ops : List HostOp) : (s.setHost ops).phase = s.phase := rfl
@[simp] theorem State.setHost_ph (ops : List HostOp) : (s.setHost ops).ph = s.ph := rfl
@[simp] theorem State.setHost_maxf (ops : List HostOp) : (s.setHost ops).maxf = s.maxf := rfl
@[simp] theorem State.setHost_nc (ops : List HostOp) : (s.setHost ops).nc = s.nc := rfl
@[simp] theorem State.setHost_fq (ops : List HostOp) : (s.setHost ops).fq = s.fq := rfl
@[simp] theorem State.setHost_dt (ops : List HostOp) : (s.setHost ops).dt = s.dt := rfl
@[simp] theorem State.setHost_mts (ops : List HostOp) : (s.setHost ops).mts = s.mts := rfl
@[simp] theorem State.setHost_cmax (ops : List HostOp) : (s.setHost ops).cmax = s.cmax := rfl
@[simp] theorem State.setHost_frag (ops : List HostOp) : (s.setHost ops).frag = s.frag := rfl
@[simp] theorem State.setHost_pos (ops : List HostOp) : (s.setHost ops).pos = s.pos := rfl
@[simp] theorem State.setHost_suok (ops : List HostOp) : (s.setHost ops).suok = s.suok := rfl
@[simp] theorem State.setHost_out (ops : List HostOp) : (s.setHost ops).out = s.out := rfl
@[simp] theorem State.setHost_pass (ops : List HostOp) : (s.setHost ops).pass = s.pass := rfl
@[simp] theorem State.setHost_ackDue (ops : List HostOp) : (s.setHost ops).ackDue = s.ackDue := rfl
@[simp] theorem State.setHost_ret (ops : List HostOp) : (s.setHost ops).ret = s.ret := rfl
@[simp] theorem State.setHost_host (ops : List HostOp) : (s.setHost ops).host = ops := rfl
@[simp] theorem State.setHost_cfg (ops : List HostOp) : (s.setHost ops).cfg = s.cfg := rfl

@[simp] theorem State.acked_ib : (s.acked).ib = s.ib := rfl
@[simp] theorem State.acked_phase : (s.acked).phase = s.phase := rfl
@[simp] theorem State.acked_ph : (s.acked).ph = s.ph := rfl
@[simp] theorem State.acked_maxf : (s.acked).maxf = s.maxf := rfl
@[simp] theorem State.acked_nc : (s.acked).nc = s.nc := rfl
@[simp] theorem State.acked_fq : (s.acked).fq = s.fq := rfl
@[simp] theorem State.acked_dt : (s.acked).dt = s.dt := rfl
@[simp] theorem State.acked_mts : (s.acked).mts = s.mts := rfl
@[simp] theorem State.acked_cmax : (s.acked).cmax = s.cmax := rfl
@[simp] theorem State.acked_frag : (s.acked).frag = s.frag := rfl
@[simp] theorem State.acked_pos : (s.acked).pos = s.pos := rfl
@[simp] theorem State.acked_suok : (s.acked).suok = s.suok := rfl
@[simp] theorem State.acked_out : (s.acked).out = s.out := rfl
@[simp] theorem State.acked_pass : (s.acked).pass = s.pass := rfl
@[simp] theorem State.acked_ackDue : (s.acked).ackDue = false := rfl
@[simp] theorem State.acked_ret : (s.acked).ret = s.ret := rfl
@[simp] theorem State.acked_host : (s.acked).host = s.host := rfl
@[simp] theorem State.acked_cfg : (s.acked).cfg = s.cfg := rfl

@[simp] theorem State.setRet_ib (r : Ret) : (s.setRet r).ib = s.ib := rfl
@[simp] theorem State.setRet_phase (r : Ret) : (s.setRet r).phase = s.phase := rfl
@[simp] theorem State.setRet_ph (r : Ret) : (s.setRet r).ph = s.ph := rfl
@[simp] theorem State.setRet_maxf (r : Ret) : (s.setRet r).maxf = s.maxf := rfl
@[simp] theorem State.setRet_nc (r : Ret) : (s.setRet r).nc = s.nc := rfl
@[simp] theorem State.setRet_fq (r : Ret) : (s.setRet r).fq = s.fq := rfl
@[simp] theorem State.setRet_dt (r : Ret) : (s.setRet r).dt = s.dt := rfl
@[simp] theorem State.setRet_mts (r : Ret) : (s.setRet r).mts = s.mts := rfl
@[simp] theorem State.setRet_cmax (r : Ret) : (s.setRet r).cmax = s.cmax := rfl
@[simp] theorem State.setRet_frag (r : Ret) : (s.setRet r).frag = s.frag := rfl
@[simp] theorem State.setRet_pos (r : Ret) : (s.setRet r).pos = s.pos := rfl
@[simp] theorem State.setRet_suok (r : Ret) : (s.setRet r).suok = s.suok := rfl
@[simp] theorem State.setRet_out (r : Ret) : (s.setRet r).out = s.out := rfl
@[simp] theorem State.setRet_pass (r : Ret) : (s.setRet r).pass = s.pass := rfl
@[simp] theorem State.setRet_ackDue (r : Ret) : (s.setRet r).ackDue = s.ackDue := rfl
@[simp] theorem State.setRet_ret (r : Ret) : (s.setRet r).ret = r := rfl
@[simp] theorem State.setRet_host (r : Ret) : (s.setRet r).host = s.host := rfl
@[simp] theorem State.setRet_cfg (r : Ret) : (s.setRet r).cfg = s.cfg := rfl

end Sys2Proof.Machine
end

