-- ==== Sys2Proof/Laws/Table.lean ====
section
/-! SUPPORT. The dynamic table: what its size is, what eviction keeps, what an insertion leaves, what a lookup gives. -/

namespace Sys2Proof.Machine

@[simp] theorem tableSize_nil : tableSize [] = 0 := rfl
@[simp] theorem tableSize_cons (h : Header) (dt : List Header) :
    tableSize (h :: dt) = entrySize h + tableSize dt := rfl

/-- Everything the loop of R127 and R128 can do, with turns enough: it keeps a run of the newest entries that is within
the bound (or empty), and no longer run is. -/
theorem evictLoop_spec (bound : Int) : ∀ (n : Nat) (dt : List Header), dt.length ≤ n →
    ∃ k, k ≤ dt.length ∧ evictLoop n bound dt = dt.take k ∧ (k = 0 ∨ (tableSize (dt.take k) : Int) ≤ bound) ∧
      ∀ j, k < j → j ≤ dt.length → bound < (tableSize (dt.take j) : Int)
  | 0, dt, hn => by
    have : dt = [] := List.length_eq_zero_iff.mp (by omega)
    subst this
    exact ⟨0, by simp, rfl, .inl rfl, fun j hj hj' => by simp at hj'; omega⟩
  | n + 1, dt, hn => by
    by_cases hc : 0 < dt.length ∧ bound < (tableSize dt : Int)
    · obtain ⟨k, hk, he, hb, hmax⟩ := evictLoop_spec bound n dt.dropLast (by simp; omega)
      have hk' : k ≤ dt.length - 1 := by simpa using hk
      have htake : ∀ j, j ≤ dt.length - 1 → dt.dropLast.take j = dt.take j := fun j hj => by
        rw [List.dropLast_eq_take, List.take_take, Nat.min_eq_left hj]
      refine ⟨k, by omega, ?_, ?_, ?_⟩
      · rw [evictLoop, if_pos hc, he, htake k hk']
      · rwa [htake k hk'] at hb
      · intro j hj hj'
        rcases Nat.lt_or_ge j dt.length with h | h
        · simpa [htake j (by omega)] using hmax j hj (by simp; omega)
        · rw [List.take_of_length_le h]; exact hc.2
    · refine ⟨dt.length, le_refl _, ?_, ?_, fun j h h' => by omega⟩
      · rw [evictLoop, if_neg hc, List.take_length]
      · rw [List.take_length]
        rcases Nat.eq_zero_or_pos dt.length with h | h
        · exact .inl h
        · exact .inr (by_contra fun hb => hc ⟨h, by omega⟩)

theorem evict_le (n : Nat) (dt : List Header) : tableSize (evict n dt) ≤ n := by
  obtain ⟨k, -, he, hb, -⟩ := evictLoop_spec n dt.length dt le_rfl
  rw [evict, he]
  rcases hb with rfl | hb
  · simp
  · omega

/-- A bound below zero empties the table. -/
theorem evict_neg (bound : Int) (hb : bound < 0) (dt : List Header) : evict bound dt = [] := by
  obtain ⟨k, -, he, hk, -⟩ := evictLoop_spec bound dt.length dt le_rfl
  rw [evict, he]
  rcases hk with rfl | hk
  · rfl
  · omega

/-- A table within the bound is left as it is. -/
theorem evict_of_le (bound : Int) (dt : List Header) (h : (tableSize dt : Int) ≤ bound) : evict bound dt = dt := by
  obtain ⟨k, hk, he, -, hmax⟩ := evictLoop_spec bound dt.length dt le_rfl
  rw [evict, he]
  rcases Nat.lt_or_ge k dt.length with hlt | hge
  · have := hmax dt.length hlt le_rfl
    rw [List.take_length] at this
    omega
  · exact List.take_of_length_le hge

/-- An entry within the bound is put in front of what the eviction keeps (R127). -/
theorem inserted_of_le {mts : Nat} {h : Header} (hs : entrySize h ≤ mts) (dt : List Header) :
    inserted mts h dt = h :: evict ((mts : Int) - entrySize h) dt := by simp [inserted, hs]

/-- An entry above the bound empties the table (R127). -/
theorem inserted_of_gt {mts : Nat} {h : Header} (hs : mts < entrySize h) (dt : List Header) :
    inserted mts h dt = [] := by
  rw [inserted, if_neg (by omega), evict_neg _ (by omega)]

/-- `SIZE(DT) <= MTS` after an insertion (R127). -/
theorem inserted_le (mts : Nat) (h : Header) (dt : List Header) : tableSize (inserted mts h dt) ≤ mts := by
  rcases Nat.lt_or_ge mts (entrySize h) with hs | hs
  · simp [inserted_of_gt hs]
  · rw [inserted_of_le hs, tableSize_cons]
    have := evict_le (mts - entrySize h) dt
    rw [Nat.cast_sub hs] at this
    omega

theorem staticTable_length : staticTable.length = 61 := by decide

/-- `Lookup` (R125): a static row, a dynamic entry, or nothing. -/
theorem lookup_static {i : Nat} (h : i ≤ 61) (dt : List Header) : lookup i dt = staticTable[i - 1]? := by
  simp [lookup, Config.staticCount, h]
theorem lookup_dynamic {i : Nat} (h : 62 ≤ i) (dt : List Header) :
    lookup i dt = (dt[i - 62]?).map fun e => ⟨e.name, some e.value⟩ := by
  simp [lookup, Config.staticCount, show ¬ i ≤ 61 by omega]
theorem lookup_none {i : Nat} {dt : List Header} (h : 61 + dt.length < i) : lookup i dt = none := by
  rw [lookup_dynamic (by omega), List.getElem?_eq_none (by omega)]; rfl

end Sys2Proof.Machine
end

