-- ==== Sys2Proof/Laws/Memory.lean ====
section
/-! SUPPORT. The form `Memory.wf` of the three address spaces: what it says, that reset has it, and that every operation
over them keeps it. -/

namespace Sys2Proof.Machine

theorem memory_wf_iff (s : State) : Memory.wf s = true ↔
    s.pos ≤ s.frag.length ∧ (∀ cap, s.cfg.ibCap = some cap → s.ib.length ≤ cap) ∧ tableSize s.dt ≤ s.mts.toNat := by
  unfold Memory.wf
  cases h : s.cfg.ibCap <;> simp [and_assoc]

theorem memory_wf_reset (c : Params) : Memory.wf (State.resetWith c) = true := by
  rw [memory_wf_iff]
  simp [State.resetWith]

/-- A cursor read (41 R120) keeps the form. -/
theorem memory_wf_nextByte {s t : State} {b : Byte} (hs : Memory.wf s = true) (h : nextByte s = .ok (b, t)) :
    Memory.wf t = true := by
  rw [memory_wf_iff] at hs ⊢
  unfold nextByte at h
  split at h
  · cases h
  · next hb =>
    cases h
    have := (List.getElem?_eq_some_iff.mp hb).1
    exact ⟨this, hs.2.1, hs.2.2⟩

/-- A string's octets taken (41 R121) keep the form. -/
theorem memory_wf_takeBytes {n : Nat} {s t : State} {x : Bytes} (hs : Memory.wf s = true)
    (h : takeBytes n s = .ok (x, t)) : Memory.wf t = true := by
  rw [memory_wf_iff] at hs ⊢
  unfold takeBytes at h
  split at h
  · cases h
  · next hn =>
    cases h
    refine ⟨?_, hs.2.1, hs.2.2⟩
    simp only [State.setPos_pos, State.setPos_frag]
    omega

/-- `Insert` (41 R127) keeps the form, whatever the table was. -/
theorem memory_wf_insert (h : Header) {s : State} (hs : Memory.wf s = true) : Memory.wf (insert h s) = true := by
  rw [memory_wf_iff] at hs ⊢
  exact ⟨hs.1, hs.2.1, inserted_le _ _ _⟩

/-- A new bound and the eviction to it (42 R146) keep the form. -/
theorem memory_wf_resize {n : Nat} {s : State} (hs : Memory.wf s = true) (hn : n ≤ s.cmax.toNat) :
    Memory.wf (evictTo n (s.setMts (BitVec.ofNat 32 n))) = true := by
  rw [memory_wf_iff] at hs ⊢
  refine ⟨hs.1, hs.2.1, ?_⟩
  have hlt : n < 2 ^ 32 := Nat.lt_of_le_of_lt hn s.cmax.isLt
  show tableSize (evict n s.dt) ≤ (BitVec.ofNat 32 n).toNat
  rw [BitVec.toNat_ofNat, Nat.mod_eq_of_lt hlt]
  exact evict_le n s.dt

/-- Fewer bytes in IB, as after a parse (40 R100, R101), keep the form. -/
theorem memory_wf_setIb {b : Bytes} {s : State} (hs : Memory.wf s = true) (hb : b.length ≤ s.ib.length) :
    Memory.wf (s.setIb b) = true := by
  rw [memory_wf_iff] at hs ⊢
  exact ⟨hs.1, fun cap hc => Nat.le_trans hb (hs.2.1 cap hc), hs.2.2⟩

/-- `FEED` of a chunk that is not stalled (00_scope R12, 46 R181) keeps the form. -/
theorem memory_wf_feed {chunk : Bytes} {s : State} (hs : Memory.wf s = true) (hn : s.nc = false)
    (hf : stalled (.feed chunk) s = false) : Memory.wf (s.setIb (s.ib ++ chunk)) = true := by
  rw [memory_wf_iff] at hs ⊢
  refine ⟨hs.1, fun cap hc => ?_, hs.2.2⟩
  have hc' : s.cfg.ibCap = some cap := hc
  simp [stalled, hc', hn] at hf
  simpa using hf

/-- A pass over a new fragment (42 R140) keeps the form. -/
theorem memory_wf_startPass (frag : Bytes) {s : State} (hs : Memory.wf s = true) :
    Memory.wf (s.startPass frag) = true := by
  rw [memory_wf_iff] at hs ⊢
  exact ⟨Nat.zero_le _, hs.2.1, hs.2.2⟩

/-- An error taken (60 R208) keeps the form. -/
theorem memory_wf_raise (k : Cause) {s t : State} (hs : Memory.wf s = true) (h : raise k s = .next t) :
    Memory.wf t = true := by
  cases h
  exact hs

end Sys2Proof.Machine
end

