-- ==== Sys2Proof/Laws/Units.lean ====
section
/-! SUPPORT. What each shared operation of a pass can do, and from that what a unit of the table can do: it goes on
reading, completes a field, resizes the table, or raises an error. -/

namespace Sys2Proof.Machine

/-! ## Errors and reads -/

theorem raise_eq (k : Cause) (s : State) : raise k s = .next (failed k s) := rfl

theorem nextByte_eq_some {s : State} {b : Byte} (h : s.frag[s.pos]? = some b) :
    nextByte s = .ok (b, s.setPos (s.pos + 1)) := by simp [nextByte, h]

theorem nextByte_eq_none {s : State} (h : s.frag.length ≤ s.pos) : nextByte s = .error .hTrunc := by
  simp [nextByte, List.getElem?_eq_none h]

theorem takeBytes_of_le {n : Nat} {s : State} (h : n ≤ s.frag.length - s.pos) :
    takeBytes n s = .ok ((s.frag.drop s.pos).take n, s.setPos (s.pos + n)) := by
  simp [takeBytes, show ¬ s.frag.length - s.pos < n by omega]

theorem takeBytes_of_gt {n : Nat} {s : State} (h : s.frag.length - s.pos < n) :
    takeBytes n s = .error .hTrunc := by simp [takeBytes, h]

/-! ## What a unit of a pass can do -/

/-- All that a unit of a pass can do to the state. -/
inductive PassStep (s t : State) : Prop where
  /-- The pass goes on: the cursor moves within the fragment and another read is due. -/
  | goesOn (n : Nat) (w : Want) (hn : n = 0 ∨ s.pos + n ≤ s.frag.length)
      (ht : t = { s with pos := s.pos + n, pass := some w })
  /-- A field representation completes without insertion (42 R142, R144, R145). -/
  | yields (n : Nat) (h : Header) (hn : n = 0 ∨ s.pos + n ≤ s.frag.length)
      (ht : t = { s with pos := s.pos + n, suok := false, out := s.out ++ [.ok h], pass := some .rep })
  /-- A field representation completes and is inserted (42 R143). -/
  | inserts (n : Nat) (h : Header) (hn : n = 0 ∨ s.pos + n ≤ s.frag.length)
      (ht : t = { s with
        pos := s.pos + n, suok := false, out := s.out ++ [.ok h], dt := inserted s.mts.toNat h s.dt, pass := some .rep })
  /-- A size update completes (42 R146). -/
  | resizes (n : Nat) (hn : n ≤ s.cmax.toNat)
      (ht : t = { s with mts := BitVec.ofNat 32 n, dt := evict n s.dt, pass := some .rep })
  /-- An error is raised (60 R208). -/
  | fails (n : Nat) (k : Cause) (hn : n = 0 ∨ s.pos + n ≤ s.frag.length)
      (ht : t = failed k { s with pos := s.pos + n })

theorem literalDone_step (k : LitKind) (h : Header) (n : Nat) (s : State) (hn : n = 0 ∨ s.pos + n ≤ s.frag.length) :
    ∃ t, literalDone k h (s.setPos (s.pos + n)) = .next t ∧ PassStep s t := by
  cases k
  · exact ⟨_, rfl, .inserts n h hn rfl⟩
  · exact ⟨_, rfl, .yields n h hn rfl⟩
  · exact ⟨_, rfl, .yields n h hn rfl⟩

theorem stringDone_step (u : StrUse) (x : Bytes) (n : Nat) (s : State) (hn : n = 0 ∨ s.pos + n ≤ s.frag.length) :
    ∃ t, stringDone u x (s.setPos (s.pos + n)) = .next t ∧ PassStep s t := by
  cases u with
  | name k => exact ⟨_, rfl, .goesOn n _ hn rfl⟩
  | value k name => exact literalDone_step k ⟨name, x⟩ n s hn

theorem stringData_step (f : Bool) (u : StrUse) (n : Nat) (s : State) :
    ∃ t, stringData f u n s = .next t ∧ PassStep s t := by
  unfold stringData
  rcases Nat.lt_or_ge (s.frag.length - s.pos) n with h | h
  · rw [takeBytes_of_gt h]
    exact ⟨_, rfl, .fails 0 _ (.inl rfl) rfl⟩
  · rw [takeBytes_of_le h]
    have hn : n = 0 ∨ s.pos + n ≤ s.frag.length := by omega
    dsimp only
    split
    · split
      · exact stringDone_step u _ n s hn
      · exact ⟨_, rfl, .fails n _ hn rfl⟩
    · split
      · exact stringDone_step u _ n s hn
      · exact ⟨_, rfl, .fails n _ hn rfl⟩

theorem indexDone_step (i : Nat) (s : State) : ∃ t, indexDone i s = .next t ∧ PassStep s t := by
  unfold indexDone
  split
  · exact ⟨_, rfl, .fails 0 _ (.inl rfl) rfl⟩
  · split
    · exact ⟨_, rfl, .fails 0 _ (.inl rfl) rfl⟩
    · split
      · exact ⟨_, rfl, .fails 0 _ (.inl rfl) rfl⟩
      · exact ⟨_, rfl, .yields 0 _ (.inl rfl) rfl⟩

theorem nameIndexDone_step (k : LitKind) (i : Nat) (s : State) :
    ∃ t, nameIndexDone k i s = .next t ∧ PassStep s t := by
  unfold nameIndexDone
  split
  · exact ⟨_, rfl, .goesOn 0 _ (.inl rfl) rfl⟩
  · split
    · exact ⟨_, rfl, .fails 0 _ (.inl rfl) rfl⟩
    · exact ⟨_, rfl, .goesOn 0 _ (.inl rfl) rfl⟩

theorem newSizeDone_step (n : Nat) (s : State) : ∃ t, newSizeDone n s = .next t ∧ PassStep s t := by
  unfold newSizeDone
  split
  · exact ⟨_, rfl, .fails 0 _ (.inl rfl) rfl⟩
  · next h => exact ⟨_, rfl, .resizes n (by omega) rfl⟩

theorem intDone_step (u : IntUse) (i : Nat) (s : State) : ∃ t, intDone u i s = .next t ∧ PassStep s t := by
  cases u with
  | index => exact indexDone_step i s
  | nameIndex k => exact nameIndexDone_step k i s
  | newSize => exact newSizeDone_step i s
  | strLen f w => exact stringData_step f w i s

theorem intPrefix_step (n p : Nat) (u : IntUse) (s : State) : ∃ t, intPrefix n p u s = .next t ∧ PassStep s t := by
  unfold intPrefix
  split
  · exact intDone_step u p s
  · exact ⟨_, rfl, .goesOn 0 _ (.inl rfl) rfl⟩

theorem intEnd_step (u : IntUse) (i : Nat) (s : State) : ∃ t, intEnd u i s = .next t ∧ PassStep s t := by
  unfold intEnd
  split
  · exact ⟨_, rfl, .fails 0 _ (.inl rfl) rfl⟩
  · exact intDone_step u i s

/-! ## The guards -/

theorem atRep_next {s t : State} {k : Result} (h : atRep s k = .next t) :
    s.nc = false ∧ s.pass = some .rep ∧ k = .next t := by
  unfold atRep at h; split at h
  · cases h
  · next hn =>
    split at h
    · exact ⟨by simpa using hn, by assumption, h⟩
    · cases h

theorem atStr_next {s t : State} {k : StrUse → Result} (h : atStr s k = .next t) :
    s.nc = false ∧ ∃ u, s.pass = some (.str u) ∧ k u = .next t := by
  unfold atStr at h; split at h
  · cases h
  · next hn =>
    split at h
    · exact ⟨by simpa using hn, _, by assumption, h⟩
    · cases h

theorem atCont_next {s t : State} {k : IntUse → Nat → Nat → Result} (h : atCont s k = .next t) :
    s.nc = false ∧ ∃ u acc m, s.pass = some (.cont u acc m) ∧ k u acc m = .next t := by
  unfold atCont at h; split at h
  · cases h
  · next hn =>
    split at h
    · exact ⟨by simpa using hn, _, _, _, by assumption, h⟩
    · cases h

theorem atHeader_next {s t : State} {k : Result} (h : atHeader s k = .next t) :
    s.nc = false ∧ s.pass = none ∧ s.phase = .fh ∧ s.ackDue = false ∧ k = .next t := by
  unfold atHeader at h; split at h
  · cases h
  · next hn =>
    split at h
    · exact ⟨by simpa using hn, by assumption, by assumption, by assumption, h⟩
    · cases h

theorem atRep_eq {s : State} (hn : s.nc = false) (hp : s.pass = some .rep) (k : Result) : atRep s k = k := by
  simp [atRep, hn, hp]
theorem atStr_eq {s : State} {u : StrUse} (hn : s.nc = false) (hp : s.pass = some (.str u)) (k : StrUse → Result) :
    atStr s k = k u := by simp [atStr, hn, hp]
theorem atCont_eq {s : State} {u : IntUse} {acc m : Nat} (hn : s.nc = false) (hp : s.pass = some (.cont u acc m))
    (k : IntUse → Nat → Nat → Result) : atCont s k = k u acc m := by simp [atCont, hn, hp]
theorem atHeader_eq {s : State} (hn : s.nc = false) (hp : s.pass = none) (hf : s.phase = .fh) (ha : s.ackDue = false)
    (k : Result) : atHeader s k = k := by simp [atHeader, hn, hp, hf, ha]

/-! ## Units -/

/-- A unit of a pass that answers a next state was run in a pass with `NC = 0`, where the block reads it, and did one of
the things of `PassStep`. -/
theorem exec_pass_cases {x : Instr} {s t : State} (hx : x.slot ≠ .frame) (h : exec x s = .next t) :
    s.nc = false ∧ (∃ w, s.pass = some w ∧ x.slot = .octet w.ctx) ∧ PassStep s t := by
  have rep : ∀ {k : Result}, (∃ u, k = .next u ∧ PassStep s u) → atRep s k = .next t →
      s.nc = false ∧ (∃ w, s.pass = some w ∧ Slot.octet .rep = .octet w.ctx) ∧ PassStep s t := by
    rintro k ⟨u, rfl, hu⟩ hk
    obtain ⟨hn, hp, he⟩ := atRep_next hk
    cases he
    exact ⟨hn, ⟨_, hp, rfl⟩, hu⟩
  cases x with
  | frameHdr => exact absurd rfl hx
  | idx p => exact rep (intPrefix_step _ _ _ _) h
  | lincN => exact rep (intPrefix_step _ _ _ _) h
  | lincI p => exact rep (intPrefix_step _ _ _ _) h
  | lnoidxN => exact rep (intPrefix_step _ _ _ _) h
  | lnoidxI p => exact rep (intPrefix_step _ _ _ _) h
  | lneverN => exact rep (intPrefix_step _ _ _ _) h
  | lneverI p => exact rep (intPrefix_step _ _ _ _) h
  | dtsu n =>
    refine rep ?_ h
    split
    · exact intPrefix_step _ _ _ _
    · exact ⟨_, rfl, .fails 0 _ (.inl rfl) rfl⟩
  | strRaw l =>
    obtain ⟨hn, u, hp, he⟩ := atStr_next h
    obtain ⟨v, hv, hs⟩ := intPrefix_step 7 l.toNat (.strLen false u) s
    rw [he] at hv; cases hv
    exact ⟨hn, ⟨_, hp, rfl⟩, hs⟩
  | strHuf l =>
    obtain ⟨hn, u, hp, he⟩ := atStr_next h
    obtain ⟨v, hv, hs⟩ := intPrefix_step 7 l.toNat (.strLen true u) s
    rw [he] at hv; cases hv
    exact ⟨hn, ⟨_, hp, rfl⟩, hs⟩
  | intCont g =>
    obtain ⟨hn, u, acc, m, hp, he⟩ := atCont_next h
    cases he
    exact ⟨hn, ⟨_, hp, rfl⟩, .goesOn 0 _ (.inl rfl) rfl⟩
  | intLast g =>
    obtain ⟨hn, u, acc, m, hp, he⟩ := atCont_next h
    obtain ⟨v, hv, hs⟩ := intEnd_step u (intAccumulate acc m g) s
    rw [he] at hv; cases hv
    exact ⟨hn, ⟨_, hp, rfl⟩, hs⟩

/-- A unit of a pass, run where the block reads it with `NC = 0`, always answers a next state. -/
theorem exec_pass_total {x : Instr} {s : State} {w : Want} (hn : s.nc = false) (hp : s.pass = some w)
    (hx : x.slot = .octet w.ctx) : ∃ t, exec x s = .next t ∧ PassStep s t := by
  have go : ∀ t, exec x s = .next t → ∃ t, exec x s = .next t ∧ PassStep s t := fun t ht =>
    ⟨t, ht, (exec_pass_cases (by rw [hx]; simp) ht).2.2⟩
  cases w with
  | rep =>
    have rep : ∀ k : Result, (∃ u, k = .next u ∧ PassStep s u) → ∃ t, atRep s k = .next t := fun k ⟨u, hu, _⟩ =>
      ⟨u, by rw [atRep_eq hn hp, hu]⟩
    cases x with
    | strRaw | strHuf | intCont | intLast | frameHdr => simp [Instr.slot, Want.ctx] at hx
    | idx | lincN | lincI | lnoidxN | lnoidxI | lneverN | lneverI =>
      obtain ⟨t, ht⟩ := rep _ (intPrefix_step _ _ _ _)
      exact go t ht
    | dtsu n =>
      obtain ⟨t, ht⟩ := rep (if s.suok then intPrefix 5 n.toNat .newSize s else raise .hSizeLate s) (by
        split
        · exact intPrefix_step _ _ _ _
        · exact ⟨_, rfl, .fails 0 _ (.inl rfl) rfl⟩)
      exact go t ht
  | str u =>
    cases x with
    | strRaw l | strHuf l =>
      obtain ⟨t, ht, -⟩ := intPrefix_step 7 l.toNat (.strLen _ u) s
      exact go t (by rw [← ht]; exact atStr_eq hn hp _)
    | idx | lincN | lincI | lnoidxN | lnoidxI | lneverN | lneverI | dtsu | intCont | intLast | frameHdr =>
      simp [Instr.slot, Want.ctx] at hx
  | cont u acc m =>
    cases x with
    | intCont g => exact go _ (atCont_eq hn hp _)
    | intLast g =>
      obtain ⟨t, ht, -⟩ := intEnd_step u (intAccumulate acc m g) s
      exact go t (by rw [← ht]; exact atCont_eq hn hp _)
    | idx | lincN | lincI | lnoidxN | lnoidxI | lneverN | lneverI | dtsu | strRaw | strHuf | frameHdr =>
      simp [Instr.slot, Want.ctx] at hx

/-- A unit that completes an integer hands it to what it was read for. -/
theorem exec_of_delivers {u : IntUse} {x : Instr} {s : State} {v : Nat} (h : Delivers u x s v) :
    s.nc = false ∧ exec x s = intDone u v s := by
  obtain ⟨hn, h⟩ := h
  refine ⟨hn, ?_⟩
  cases x with
  | intCont | frameHdr => exact h.elim
  | intLast g =>
    obtain ⟨acc, m, hp, rfl, hb⟩ := h
    have : ¬ Config.intMax < intAccumulate acc m g := Nat.not_lt.mpr hb
    rw [exec, execIntLast, atCont_eq hn hp, intEnd, if_neg this]
    rfl
  | strRaw l =>
    obtain ⟨w, hp, rfl, hl, rfl⟩ := h
    rw [exec, execStrRaw, atStr_eq hn hp, intPrefix, if_pos (by omega)]
  | strHuf l =>
    obtain ⟨w, hp, rfl, hl, rfl⟩ := h
    rw [exec, execStrHuf, atStr_eq hn hp, intPrefix, if_pos (by omega)]
  | idx p =>
    obtain ⟨hp, rfl, hl, rfl⟩ := h
    rw [exec, execIdx, atRep_eq hn hp, intPrefix, if_pos (by omega)]
  | lincN =>
    obtain ⟨hp, rfl, rfl⟩ := h
    rw [exec, execLincN, atRep_eq hn hp, intPrefix, if_pos (by omega)]
  | lincI p =>
    obtain ⟨hp, rfl, hl, rfl⟩ := h
    rw [exec, execLincI, atRep_eq hn hp, intPrefix, if_pos (by omega)]
  | lnoidxN =>
    obtain ⟨hp, rfl, rfl⟩ := h
    rw [exec, execLnoidxN, atRep_eq hn hp, intPrefix, if_pos (by omega)]
  | lnoidxI p =>
    obtain ⟨hp, rfl, hl, rfl⟩ := h
    rw [exec, execLnoidxI, atRep_eq hn hp, intPrefix, if_pos (by omega)]
  | lneverN =>
    obtain ⟨hp, rfl, rfl⟩ := h
    rw [exec, execLneverN, atRep_eq hn hp, intPrefix, if_pos (by omega)]
  | lneverI p =>
    obtain ⟨hp, rfl, hl, rfl⟩ := h
    rw [exec, execLneverI, atRep_eq hn hp, intPrefix, if_pos (by omega)]
  | dtsu p =>
    obtain ⟨hp, hs, rfl, hl, rfl⟩ := h
    rw [exec, execDtsu, atRep_eq hn hp, if_pos hs, intPrefix, if_pos (by omega)]

/-- A frame header that answers a next state (40 R103). -/
theorem exec_frameHdr_cases {len : BitVec 24} {type flags : BitVec 8} {r : Bool} {sid : BitVec 31} {s t : State}
    (h : exec (.frameHdr len type flags r sid) s = .next t) :
    s.nc = false ∧ s.pass = none ∧ s.phase = .fh ∧ s.ackDue = false ∧
      ((headerFails s.maxf len r = true ∧ t = { s with nc := true }) ∨
       (headerFails s.maxf len r = false ∧
         t = { s with ph := some ⟨len, type, flags, sid, false⟩, phase := .fb })) := by
  obtain ⟨hn, hp, hf, ha, he⟩ := atHeader_next h
  refine ⟨hn, hp, hf, ha, ?_⟩
  cases he
  cases hh : headerFails s.maxf len r
  · exact .inr ⟨rfl, by simp [acceptHeader, parsedHeader, hh, State.awaitBody]⟩
  · exact .inl ⟨rfl, by simp [acceptHeader, parsedHeader, hh, failHeader, State.close]⟩

end Sys2Proof.Machine
end

