-- ==== Sys2Proof/Laws/Step.lean ====
section
/-! SUPPORT. Everything a step can do, said once: a read of the pass, a header accepted or fatal, a frame delivered, or a
turn of the host; and what a turn of the host can do. -/

namespace Sys2Proof.Machine

/-! ## The two parses -/

theorem fhParse_of_decode {maxf : Word} {ib rest : Bytes} {len : BitVec 24} {type flags : BitVec 8} {r : Bool}
    {sid : BitVec 31} (h : decode .frame ib = .ok (.frameHdr len type flags r sid, rest)) :
    fhParse maxf ib = some (parsedHeader maxf len type flags r sid, rest) := by simp [fhParse, h]

/-- `FH_PARSE` (40 R100): none with fewer than 9 bytes, else a header and the bytes after its nine. -/
theorem fhParse_cases (maxf : Word) (ib : Bytes) :
    (ib.length < 9 ∧ fhParse maxf ib = none) ∨ (9 ≤ ib.length ∧ ∃ h, fhParse maxf ib = some (h, ib.drop 9)) := by
  rcases decode_frame_cases ib with ⟨h9, len, type, flags, r, sid, h⟩ | ⟨h9, h⟩
  · exact .inr ⟨h9, _, fhParse_of_decode h⟩
  · exact .inl ⟨h9, by simp [fhParse, h]⟩

/-- `FB_PARSE` (40 R101). -/
theorem fbParse_of_lt {h : FrameHeader} {ib : Bytes} (hl : ib.length < h.length.toNat) : fbParse h ib = none := by
  simp [fbParse, hl]
theorem fbParse_of_le {h : FrameHeader} {ib : Bytes} (hl : h.length.toNat ≤ ib.length) :
    fbParse h ib = some (ib.take h.length.toNat, ib.drop h.length.toNat) := by
  simp [fbParse, show ¬ ib.length < h.length.toNat by omega]

/-! ## The host's turn -/

/-- All that a turn of the host can do to the state. -/
inductive HostStep (s t : State) : Prop where
  /-- No operation, or a stalled `FEED`. -/
  | rests (ht : t = s)
  /-- `RESET`. -/
  | resets (ops : List HostOp) (hs : s.host = .reset :: ops) (ht : t = { State.resetWith s.cfg with host := ops })
  /-- With `NC = 1` an operation is taken and changes nothing. -/
  | ignored (hn : s.nc = true) (ht : t = { s with host := s.host.tail })
  | feeds (hn : s.nc = false) (chunk : Bytes) (ops : List HostOp) (hs : s.host = .feed chunk :: ops)
      (hroom : ∀ cap, s.cfg.ibCap = some cap → s.ib.length + chunk.length ≤ cap)
      (ht : t = { s with ib := s.ib ++ chunk, host := ops })
  | setsMaxf (hn : s.nc = false) (v : Word) (ops : List HostOp) (hs : s.host = .setMaxf v :: ops)
      (ht : t = { s with maxf := v, host := ops })
  | setsCmax (hn : s.nc = false) (v : Word) (ops : List HostOp) (hs : s.host = .setCmax v :: ops)
      (ht : t = { s with cmax := v, host := ops })
  | closes (ops : List HostOp) (hs : s.host = .setNc :: ops) (ht : t = { s with nc := true, host := ops })
  | starts (hn : s.nc = false) (hp : s.pass = none) (frag : Bytes) (ops : List HostOp)
      (hs : s.host = .decodeBlock frag :: ops)
      (ht : t = { s with frag := frag, pos := 0, suok := true, out := [], pass := some .rep, host := ops })
  /-- A direct parse: IB loses a prefix (perhaps empty) and the answer is returned. -/
  | parses (hn : s.nc = false) (n : Nat) (r : Ret)
      (hs : s.host.head? = some .fhParse ∨ ∃ h, s.host.head? = some (.fbParse h))
      (ht : t = { s with ib := s.ib.drop n, ret := r, host := s.host.tail })
  | acks (hn : s.nc = false) (ops : List HostOp) (hs : s.host = .ack :: ops)
      (ht : t = { s with ackDue := false, host := ops })

theorem hostTurn_cases {s t : State} (h : hostTurn s = .next t) : HostStep s t := by
  unfold hostTurn at h
  split at h
  · cases h; exact .rests rfl
  · next op ops hs =>
    have tail : s.host.tail = ops := by rw [hs]; rfl
    split at h
    · cases h; exact .rests rfl
    · next hst =>
      cases hn : s.nc with
      | true =>
        cases op with
        | reset => cases h; exact .resets ops hs rfl
        | setNc => cases h; exact .closes ops hs rfl
        | decodeBlock frag => simp [hostOp, hostDecodeBlock, hn] at h
        | fbParse hd =>
          simp only [hostOp, hostFbParse, State.setHost_nc, hn] at h
          split at h
          · cases h
          · cases h; exact .ignored hn (by rw [tail]; rfl)
        | feed | setMaxf | setCmax | fhParse | ack =>
          simp [hostOp, hostFeed, hostSetMaxf, hostSetCmax, hostFhParse, hostAck, hn] at h
          exact .ignored hn (by rw [tail, ← h]; rfl)
      | false =>
        cases op with
        | reset => cases h; exact .resets ops hs rfl
        | setNc => cases h; exact .closes ops hs rfl
        | feed chunk =>
          simp [hostOp, hostFeed, hn] at h
          refine .feeds hn chunk ops hs (fun cap hc => ?_) h.symm
          simpa [stalled, hc, hn] using hst
        | setMaxf v =>
          simp [hostOp, hostSetMaxf, hn] at h
          exact .setsMaxf hn v ops hs h.symm
        | setCmax v =>
          simp [hostOp, hostSetCmax, hn] at h
          exact .setsCmax hn v ops hs h.symm
        | ack =>
          simp [hostOp, hostAck, hn] at h
          exact .acks hn ops hs h.symm
        | decodeBlock frag =>
          simp only [hostOp, hostDecodeBlock, State.setHost_nc, hn, State.setHost_pass] at h
          split at h
          · next hb => simp at hb
          · split at h
            · cases h
            · next hp => cases h; exact .starts hn hp frag ops hs rfl
        | fhParse =>
          have hh : s.host.head? = some .fhParse := by rw [hs]; rfl
          simp only [hostOp, hostFhParse, State.setHost_nc, hn, State.setHost_maxf, State.setHost_ib] at h
          rcases fhParse_cases s.maxf s.ib with ⟨-, hf⟩ | ⟨-, hd, hf⟩
          · simp [hf] at h; exact .parses hn 0 _ (.inl hh) (by rw [tail, ← h]; rfl)
          · simp [hf] at h; exact .parses hn 9 _ (.inl hh) (by rw [tail, ← h]; rfl)
        | fbParse hd =>
          have hh : s.host.head? = some (.fbParse hd) := by rw [hs]; rfl
          simp only [hostOp, hostFbParse, State.setHost_nc, hn, State.setHost_ib] at h
          split at h
          · cases h
          · rcases Nat.lt_or_ge s.ib.length hd.length.toNat with hl | hl
            · simp [fbParse_of_lt hl] at h
              exact .parses hn 0 _ (.inr ⟨_, hh⟩) (by rw [tail, ← h]; rfl)
            · simp [fbParse_of_le hl] at h
              exact .parses hn hd.length.toNat _ (.inr ⟨_, hh⟩) (by rw [tail, ← h]; rfl)

/-- What is refused when it is the host's turn (60 R220 a, b), with no pass in progress unless `NC = 1`. -/
theorem hostTurn_refused {s : State} {r : Refusal} (hp : s.nc = true ∨ s.pass = none)
    (h : hostTurn s = .refused r) :
    (r = .afterClose ∧ s.nc = true ∧ ∃ frag, s.host.head? = some (.decodeBlock frag)) ∨
    (r = .failingHeader ∧ ∃ hd, hd.failure = true ∧ s.host.head? = some (.fbParse hd)) := by
  unfold hostTurn at h
  split at h
  · cases h
  · next op ops hs =>
    split at h
    · cases h
    · cases op with
      | reset | setNc | feed | setMaxf | setCmax | ack => cases h
      | fhParse =>
        simp only [hostOp, hostFhParse] at h
        split at h
        · cases h
        · split at h <;> cases h
      | fbParse hd =>
        simp only [hostOp, hostFbParse] at h
        split at h
        · next hf => cases h; exact .inr ⟨rfl, hd, hf, by rw [hs]; rfl⟩
        · split at h
          · cases h
          · split at h <;> cases h
      | decodeBlock frag =>
        cases hn : s.nc with
        | true => simp [hostOp, hostDecodeBlock, hn] at h; exact .inl ⟨h.symm, rfl, frag, by rw [hs]; rfl⟩
        | false =>
          rcases hp with hp | hp
          · rw [hn] at hp; cases hp
          · simp [hostOp, hostDecodeBlock, hn, hp] at h

theorem hostTurn_not_fault {s : State} {f : Fault} : hostTurn s ≠ .fault f := by
  intro h
  unfold hostTurn at h
  split at h
  · cases h
  · next op ops hs =>
    split at h
    · cases h
    · cases op with
      | reset | setNc | feed | setMaxf | setCmax | ack => cases h
      | fhParse =>
        simp only [hostOp, hostFhParse] at h
        split at h
        · cases h
        · split at h <;> cases h
      | fbParse hd =>
        simp only [hostOp, hostFbParse] at h
        split at h
        · cases h
        · split at h
          · cases h
          · split at h <;> cases h
      | decodeBlock frag =>
        simp only [hostOp, hostDecodeBlock] at h
        split at h
        · cases h
        · split at h <;> cases h

/-! ## A step -/

/-- All that a step can do to the state. -/
inductive Turn (s t : State) : Prop where
  /-- The pass is over: its fragment is exhausted between representations. -/
  | passEnds (hn : s.nc = false) (hp : s.pass = some .rep) (hl : s.frag.length ≤ s.pos) (ht : t = { s with pass := none })
  /-- A read at the end of the fragment (`H_TRUNC`). -/
  | truncated (hn : s.nc = false) (w : Want) (hp : s.pass = some w) (hw : w ≠ .rep) (hl : s.frag.length ≤ s.pos)
      (ht : t = failed .hTrunc s)
  /-- The byte at the cursor is read and its unit run. -/
  | unit (hn : s.nc = false) (w : Want) (b : Byte) (hp : s.pass = some w) (hb : s.frag[s.pos]? = some b)
      (he : exec (decodeOctet w.ctx b) { s with pos := s.pos + 1 } = .next t)
      (hs : PassStep { s with pos := s.pos + 1 } t)
  /-- A failing header (40 R103). -/
  | headerFails (hn : s.nc = false) (hp : s.pass = none) (ha : s.ackDue = false) (hf : s.phase = .fh)
      (h9 : 9 ≤ s.ib.length) (ht : t = { s with ib := s.ib.drop 9, nc := true })
  /-- A header accepted (40 R103). -/
  | header (hn : s.nc = false) (hp : s.pass = none) (ha : s.ackDue = false) (hf : s.phase = .fh)
      (h9 : 9 ≤ s.ib.length) (h : FrameHeader) (hh : h.failure = false)
      (ht : t = { s with ib := s.ib.drop 9, ph := some h, phase := .fb })
  /-- A frame delivered (40 R104). -/
  | delivers (hn : s.nc = false) (hp : s.pass = none) (ha : s.ackDue = false) (hf : s.phase = .fb) (h : FrameHeader)
      (hph : s.ph = some h) (hh : h.failure = false) (hl : h.length.toNat ≤ s.ib.length)
      (ht : t = { s with
        ib := s.ib.drop h.length.toNat, ph := none, phase := .fh, ackDue := true
        fq := s.fq ++ [(h, s.ib.take h.length.toNat)] })
  /-- A turn of the host: `NC = 1`, or no pass is in progress. -/
  | host (hp : s.nc = true ∨ s.pass = none) (hs : HostStep s t)

theorem step_unit {s : State} {w : Want} {b : Byte} (hn : s.nc = false) (hp : s.pass = some w)
    (hb : s.frag[s.pos]? = some b) : step s = exec (decodeOctet w.ctx b) { s with pos := s.pos + 1 } := by
  have hlt : s.pos < s.frag.length := (List.getElem?_eq_some_iff.mp hb).1
  have hf : fetchOctet w.ctx s = .run (decodeOctet w.ctx b) { s with pos := s.pos + 1 } := by
    simp [fetchOctet, nextByte_eq_some hb, State.setPos]
  cases w <;> simp_all [step, fetch, fetchPass, Want.ctx]

theorem step_atEnd {s : State} {w : Want} (hn : s.nc = false) (hp : s.pass = some w) (hl : s.frag.length ≤ s.pos) :
    step s = if w = .rep then .next { s with pass := none } else .next (failed .hTrunc s) := by
  have hf : ∀ c, fetchOctet c s = .done (raise .hTrunc s) := fun c => by simp [fetchOctet, nextByte_eq_none hl]
  cases w with
  | rep => simp [step, fetch, hn, hp, fetchPass, show ¬ s.pos < s.frag.length by omega, State.endPass]
  | str u => simp [step, fetch, hn, hp, fetchPass, hf, raise_eq]
  | cont u acc m => simp [step, fetch, hn, hp, fetchPass, hf, raise_eq]

theorem step_closed {s : State} (hn : s.nc = true) : step s = hostTurn s := by simp [step, fetch, hn]

theorem step_ackDue {s : State} (hn : s.nc = false) (hp : s.pass = none) (ha : s.ackDue = true) :
    step s = hostTurn s := by simp [step, fetch, hn, hp, ha]

theorem step_header {s : State} {i : Instr} {rest : Bytes} (hn : s.nc = false) (hp : s.pass = none)
    (ha : s.ackDue = false) (hf : s.phase = .fh) (hd : decode .frame s.ib = .ok (i, rest)) :
    step s = exec i { s with ib := rest } := by
  simp [step, fetch, hn, hp, ha, hf, fetchHeader, hd, State.setIb]

theorem step_noHeader {s : State} (hn : s.nc = false) (hp : s.pass = none) (hf : s.phase = .fh)
    (hl : s.ib.length < 9) : step s = hostTurn s := by
  rcases decode_frame_cases s.ib with ⟨h9, -⟩ | ⟨-, hd⟩
  · omega
  · cases ha : s.ackDue <;> simp [step, fetch, hn, hp, ha, hf, fetchHeader, hd]

theorem step_deliver {s : State} {h : FrameHeader} (hn : s.nc = false) (hp : s.pass = none) (ha : s.ackDue = false)
    (hf : s.phase = .fb) (hph : s.ph = some h) (hh : h.failure = false) (hl : h.length.toNat ≤ s.ib.length) :
    step s = .next { s with
      ib := s.ib.drop h.length.toNat, ph := none, phase := .fh, ackDue := true
      fq := s.fq ++ [(h, s.ib.take h.length.toNat)] } := by
  simp [step, fetch, hn, hp, ha, hf, fetchBody, hph, hh, fbParse_of_le hl, State.setIb, State.deliver]

theorem step_noBody {s : State} {h : FrameHeader} (hn : s.nc = false) (hp : s.pass = none) (hf : s.phase = .fb)
    (hph : s.ph = some h) (hh : h.failure = false) (hl : s.ib.length < h.length.toNat) : step s = hostTurn s := by
  cases ha : s.ackDue <;> simp [step, fetch, hn, hp, ha, hf, fetchBody, hph, hh, fbParse_of_lt hl]

/-- At the host's turn a step is the host's turn. -/
theorem step_hostsTurn {s : State} (hn : s.nc = false) (ht : HostsTurn s) : step s = hostTurn s := by
  obtain ⟨hp, ha | ⟨hf, hl⟩ | ⟨h, hf, hph, hh, hl⟩⟩ := ht
  · exact step_ackDue hn hp ha
  · exact step_noHeader hn hp hf hl
  · exact step_noBody hn hp hf hph hh hl

/-- An operation that is not a stalled `FEED` is taken. -/
theorem hostTurn_takes {s : State} {op : HostOp} {ops : List HostOp} (hs : s.host = op :: ops)
    (hst : stalled op s = false) : hostTurn s = hostOp op (s.setHost ops) := by simp [hostTurn, hs, hst]

/-- Everything a step can do. -/
theorem step_cases {s t : State} (h : step s = .next t) : Turn s t := by
  cases hn : s.nc with
  | true => rw [step_closed hn] at h; exact .host (.inl hn) (hostTurn_cases h)
  | false =>
    cases hp : s.pass with
    | some w =>
      cases hb : s.frag[s.pos]? with
      | some b =>
        rw [step_unit hn hp hb] at h
        refine .unit hn w b hp hb h (exec_pass_cases ?_ h).2.2
        rw [(decodeOctet_spec _ _).2.1]; simp
      | none =>
        have hl := List.getElem?_eq_none_iff.mp hb
        rw [step_atEnd hn hp hl] at h
        split at h
        · next hw => cases h; exact .passEnds hn (by rw [hp, hw]) hl rfl
        · next hw => cases h; exact .truncated hn w hp hw hl rfl
    | none =>
      cases ha : s.ackDue with
      | true => rw [step_ackDue hn hp ha] at h; exact .host (.inr hp) (hostTurn_cases h)
      | false =>
        cases hf : s.phase with
        | fh =>
          rcases decode_frame_cases s.ib with ⟨h9, len, type, flags, r, sid, hd⟩ | ⟨h9, -⟩
          · rw [step_header hn hp ha hf hd] at h
            obtain ⟨-, -, -, -, ⟨-, ht⟩ | ⟨-, ht⟩⟩ := exec_frameHdr_cases h
            · exact .headerFails hn hp ha hf h9 ht
            · exact .header hn hp ha hf h9 _ rfl ht
          · rw [step_noHeader hn hp hf h9] at h
            exact .host (.inr hp) (hostTurn_cases h)
        | fb =>
          cases hph : s.ph with
          | none => simp [step, fetch, hn, hp, ha, hf, fetchBody, hph] at h
          | some hd =>
            cases hh : hd.failure with
            | true => simp [step, fetch, hn, hp, ha, hf, fetchBody, hph, hh] at h
            | false =>
              rcases Nat.lt_or_ge s.ib.length hd.length.toNat with hl | hl
              · rw [step_noBody hn hp hf hph hh hl] at h
                exact .host (.inr hp) (hostTurn_cases h)
              · rw [step_deliver hn hp ha hf hph hh hl] at h
                exact .delivers hn hp ha hf hd hph hh hl (by cases h; rfl)

end Sys2Proof.Machine
end

