-- ==== Sys2Proof/Laws/Pass.lean ====
section
/-! SUPPORT. The units of a pass run one by one against the reads of Pass.lean: an integer, a string and a literal end
in the same value and cursor, or the same error, within as many steps as bytes. -/

namespace Sys2Proof.Machine

/-- The kind of a literal that is not incrementally indexed, by bit 4 of its first byte (30 R76, R77). -/
def repKind (b : Byte) : LitKind := if b.getLsbD 4 then .lnever else .lnoidx

/-- The low `n` bits of a byte. -/
theorem extractLow_toNat (n : Nat) (b : Byte) : (b.extractLsb' 0 n).toNat = b.toNat % 2 ^ n := by
  simp [BitVec.extractLsb'_toNat]

theorem mod_of_extractLow (n : Nat) (b : Byte) (h : b.extractLsb' 0 n = 0) : b.toNat % 2 ^ n = 0 := by
  rw [← extractLow_toNat, h]; rfl

/-- `n` more steps from an answer. -/
def after (n : Nat) : Result → Result
  | .next t => runSteps n t
  | .fault r => .fault r
  | .refused r => .refused r

theorem after_zero (r : Result) : after 0 r = r := by cases r <;> rfl
/-- What an integer is read for decides what happens; the place it was read in is forgotten. -/
theorem intDone_setWant (u : IntUse) (v : Nat) (s : State) (w : Want) : intDone u v (s.setWant w) = intDone u v s := by
  cases u with
  | index => simp only [intDone, indexDone]; split; rfl; simp only [State.setWant_dt]; split; rfl; split <;> rfl
  | nameIndex k => simp only [intDone, nameIndexDone]; split; rfl; simp only [State.setWant_dt]; split <;> rfl
  | newSize =>
    unfold intDone newSizeDone
    by_cases h : s.cmax.toNat < v
    · rw [if_pos (show (s.setWant w).cmax.toNat < v from h), if_pos h]; rfl
    · rw [if_neg (show ¬ (s.setWant w).cmax.toNat < v from h), if_neg h]; rfl
  | strLen h u =>
    simp only [intDone, stringData]
    rcases Nat.lt_or_ge (s.frag.length - s.pos) v with hl | hl
    · rw [takeBytes_of_gt (s := s) hl, takeBytes_of_gt (s := s.setWant w) hl]; rfl
    · rw [takeBytes_of_le (s := s) hl, takeBytes_of_le (s := s.setWant w) hl]
      simp only [State.setWant_cfg, State.setWant_frag, State.setWant_pos]
      have e : ∀ x, stringDone u x ((s.setWant w).setPos (s.pos + v)) = stringDone u x (s.setPos (s.pos + v)) := by
        intro x; cases u with
        | name k => rfl
        | value k n => cases k <;> rfl
      simp only [e]
      cases h <;> cases textOk s.cfg ((s.frag.drop s.pos).take v) <;> cases huff s.cfg ((s.frag.drop s.pos).take v) <;> rfl

/-! ## Integers -/

theorem decodeCont_eq (c : Byte) : decodeCont c = if c.getLsbD 7 then .intCont (c.extractLsb' 0 7) else .intLast (c.extractLsb' 0 7) := by
  revert c; decide +kernel
theorem low7 (c : Byte) : (c.extractLsb' 0 7).toNat = c.toNat % 128 := extractLow_toNat 7 c

/-- The loop of `DecodeInt` (41 R122) read byte by byte: the same integer or the same error, in as many steps as bytes. -/
theorem groups_sim (s : State) (hn : s.nc = false) (u : IntUse) : ∀ (fuel acc m pos : Nat), s.frag.length - pos < fuel → pos ≤ s.frag.length →
    (∀ v p, readGroups s.frag fuel acc m pos = .ok (v, p) →
      pos ≤ p ∧ p ≤ s.frag.length ∧ runSteps (p - pos) ((s.setPos pos).setWant (.cont u acc m)) = intDone u v (s.setPos p)) ∧
    (∀ k p, readGroups s.frag fuel acc m pos = .error (k, p) → pos ≤ p ∧ p ≤ s.frag.length ∧
      ∃ n, n ≤ p - pos + 1 ∧ n ≤ s.frag.length - pos + 1 ∧ runSteps n ((s.setPos pos).setWant (.cont u acc m)) = .next (failed k (s.setPos p)))
  | 0, acc, m, pos, hf, hl => by omega
  | fuel + 1, acc, m, pos, hf, hl => by
    cases hb : s.frag[pos]? with
    | none =>
      have hlen := List.getElem?_eq_none_iff.mp hb
      simp only [readGroups, readByte, hb]
      refine ⟨fun v p h => (by cases h), fun k p h => ?_⟩
      cases h
      refine ⟨le_rfl, hl, 1, by omega, by omega, ?_⟩
      apply runSteps_one
      rw [step_atEnd (s := (s.setPos pos).setWant (.cont u acc m)) hn rfl hlen]; rfl
    | some c =>
      have hlt := (List.getElem?_eq_some_iff.mp hb).1
      have hstep : step ((s.setPos pos).setWant (.cont u acc m)) = exec (decodeCont c) ((s.setPos (pos+1)).setWant (.cont u acc m)) :=
        step_unit (s := (s.setPos pos).setWant (.cont u acc m)) hn rfl hb
      rw [decodeCont_eq] at hstep
      simp only [readGroups, readByte, hb]
      cases hc : c.getLsbD 7 with
      | true =>
        simp only [hc, if_true] at hstep ⊢
        have h1 : step ((s.setPos pos).setWant (.cont u acc m)) = .next ((s.setPos (pos+1)).setWant (.cont u (acc + c.toNat % 128 * 2 ^ (7 * m)) (m+1))) := by
          rw [hstep, exec, execIntCont, atCont_eq (s := (s.setPos (pos+1)).setWant (.cont u acc m)) hn rfl, intAccumulate, low7]; rfl
        obtain ⟨ih1, ih2⟩ := groups_sim s hn u fuel (acc + c.toNat % 128 * 2 ^ (7 * m)) (m+1) (pos+1) (by omega) (by omega)
        refine ⟨fun v p h => ?_, fun k p h => ?_⟩
        · obtain ⟨a, b, e⟩ := ih1 v p h
          refine ⟨by omega, b, ?_⟩
          rw [show p - pos = (p - (pos+1)) + 1 by omega, runSteps_next h1, e]
        · obtain ⟨a, b, n, hn1, hn2, e⟩ := ih2 k p h
          refine ⟨by omega, b, n + 1, by omega, by omega, ?_⟩
          rw [runSteps_next h1, e]
      | false =>
        simp only [hc, Bool.false_eq_true, if_false] at hstep ⊢
        have h1 : step ((s.setPos pos).setWant (.cont u acc m)) = intEnd u (acc + c.toNat % 128 * 2 ^ (7 * m)) (s.setPos (pos+1)) := by
          rw [hstep, exec, execIntLast, atCont_eq (s := (s.setPos (pos+1)).setWant (.cont u acc m)) hn rfl, intAccumulate, low7]
          simp only [intEnd]; split; rfl; rw [intDone_setWant]
        split
        · next hov =>
          refine ⟨fun v p h => (by cases h), fun k p h => ?_⟩
          cases h
          refine ⟨by omega, by omega, 1, by omega, by omega, ?_⟩
          apply runSteps_one
          rw [h1, intEnd, if_pos (by exact hov), raise_eq]
        · next hov =>
          refine ⟨fun v p h => ?_, fun k p h => (by cases h)⟩
          cases h
          refine ⟨by omega, by omega, ?_⟩
          rw [show pos + 1 - pos = 1 by omega]
          obtain ⟨t, ht, -⟩ := intDone_step u (acc + c.toNat % 128 * 2 ^ (7 * m)) (s.setPos (pos+1))
          rw [ht]; apply runSteps_one
          rw [h1, intEnd, if_neg (by exact hov), ht]

/-- `DecodeInt` (41 R122) from its first byte, just read. -/
theorem int_sim (s : State) (hn : s.nc = false) (hl : s.pos ≤ s.frag.length) (u : IntUse) (N : Nat) (b : Byte) :
    (∀ v p, readInt s.frag N b s.pos = .ok (v, p) →
      s.pos ≤ p ∧ p ≤ s.frag.length ∧ ∃ n, n ≤ p - s.pos ∧ after n (intPrefix N (b.toNat % 2^N) u s) = intDone u v (s.setPos p)) ∧
    (∀ k p, readInt s.frag N b s.pos = .error (k, p) → s.pos ≤ p ∧ p ≤ s.frag.length ∧
      ∃ n, n ≤ p - s.pos + 1 ∧ n ≤ s.frag.length - s.pos + 1 ∧ after n (intPrefix N (b.toNat % 2^N) u s) = .next (failed k (s.setPos p))) := by
  unfold readInt intPrefix
  dsimp only
  split
  · refine ⟨fun v p h => ?_, fun k p h => (by cases h)⟩
    cases h
    exact ⟨le_rfl, hl, 0, by omega, by rw [after_zero]; rfl⟩
  · obtain ⟨h1, h2⟩ := groups_sim s hn u (s.frag.length - s.pos + 1) (2^N-1) 0 s.pos (by omega) hl
    refine ⟨fun v p h => ?_, fun k p h => ?_⟩
    · obtain ⟨a, b, e⟩ := h1 v p h
      exact ⟨a, b, _, le_rfl, e⟩
    · obtain ⟨a, b, n, c, d, e⟩ := h2 k p h
      exact ⟨a, b, n, c, d, e⟩

/-! ## Strings -/

theorem decodeStr_eq (c : Byte) : decodeStr c = if c.getLsbD 7 then .strHuf (c.extractLsb' 0 7) else .strRaw (c.extractLsb' 0 7) := by
  revert c; decide +kernel

theorem runSteps_succ_eq {s : State} {n : Nat} : runSteps (n + 1) s = after n (step s) := by
  cases h : step s with
  | next t => rw [runSteps_next h]; rfl
  | fault r => simp [runSteps, h, after]
  | refused r => simp [runSteps, h, after]

/-- `DecodeString` (41 R124) read byte by byte. -/
theorem str_sim (s : State) (hn : s.nc = false) (hl : s.pos ≤ s.frag.length) (u : StrUse) :
    (∀ x p, readString s.cfg s.frag s.pos = .ok (x, p) →
      s.pos < p ∧ p ≤ s.frag.length ∧ ∃ n, n ≤ p - s.pos ∧ runSteps n (s.setWant (.str u)) = stringDone u x (s.setPos p)) ∧
    (∀ k p, readString s.cfg s.frag s.pos = .error (k, p) → s.pos ≤ p ∧ p ≤ s.frag.length ∧
      ∃ n, n ≤ s.frag.length - s.pos + 1 ∧ runSteps n (s.setWant (.str u)) = .next (failed k (s.setPos p))) := by
  unfold readString
  cases hb : s.frag[s.pos]? with
  | none =>
    have hlen := List.getElem?_eq_none_iff.mp hb
    simp only [readByte, hb]
    refine ⟨fun v p h => (by cases h), fun k p h => ?_⟩
    cases h
    refine ⟨le_rfl, hl, 1, by omega, ?_⟩
    apply runSteps_one
    rw [step_atEnd (s := s.setWant (.str u)) hn rfl hlen]; rfl
  | some c =>
    have hlt := (List.getElem?_eq_some_iff.mp hb).1
    simp only [readByte, hb]
    have hstep : step (s.setWant (.str u)) = intPrefix 7 (c.toNat % 2^7) (.strLen (c.getLsbD 7) u) ((s.setPos (s.pos+1)).setWant (.str u)) := by
      rw [step_unit (s := s.setWant (.str u)) hn rfl hb]
      show exec (decodeStr c) ((s.setPos (s.pos+1)).setWant (.str u)) = _
      rw [decodeStr_eq]
      cases c.getLsbD 7
      · simp only [Bool.false_eq_true, if_false]
        simp only [exec, execStrRaw]
        rw [atStr_eq (s := (s.setPos (s.pos+1)).setWant (.str u)) hn rfl, low7]; rfl
      · simp only [if_true]
        simp only [exec, execStrHuf]
        rw [atStr_eq (s := (s.setPos (s.pos+1)).setWant (.str u)) hn rfl, low7]; rfl
    obtain ⟨h1, h2⟩ := int_sim ((s.setPos (s.pos+1)).setWant (.str u)) hn hlt (.strLen (c.getLsbD 7) u) 7 c
    simp only [State.setWant_frag, State.setPos_frag, State.setWant_pos, State.setPos_pos] at h1 h2
    cases hr : readInt s.frag 7 c (s.pos + 1) with
    | error e =>
      obtain ⟨k, p⟩ := e
      refine ⟨fun v p h => (by cases h), fun k' p' h => ?_⟩
      cases h
      obtain ⟨a, b, n, e1, e2, e3⟩ := h2 k p hr
      refine ⟨by omega, b, n + 1, by omega, ?_⟩
      rw [runSteps_succ_eq, hstep, e3]; rfl
    | ok r =>
      obtain ⟨v, p⟩ := r
      obtain ⟨a, b, n, e1, e2⟩ := h1 v p hr
      have e3 : after n (step (s.setWant (.str u))) = intDone (.strLen (c.getLsbD 7) u) v (s.setPos p) := by
        rw [hstep, e2]
        exact intDone_setWant _ _ (s.setPos p) _
      dsimp only
      simp only [intDone, stringData] at e3
      rcases Nat.lt_or_ge (s.frag.length - p) v with hs | hs
      · simp only [readBytes, if_pos hs]
        rw [takeBytes_of_gt (s := s.setPos p) hs] at e3
        refine ⟨fun v p h => (by cases h), fun k' p' h => ?_⟩
        cases h
        refine ⟨by omega, b, n + 1, by omega, ?_⟩
        rw [runSteps_succ_eq, e3]; rfl
      · simp only [readBytes, if_neg (show ¬ s.frag.length - p < v by omega)]
        rw [takeBytes_of_le (s := s.setPos p) hs] at e3
        simp only [State.setPos_frag, State.setPos_pos, State.setPos_cfg] at e3
        cases hc : c.getLsbD 7 with
        | true =>
          simp only [hc, if_true] at e3 ⊢
          cases hh : huff s.cfg ((s.frag.drop p).take v) with
          | none =>
            simp only [hh] at e3 ⊢
            refine ⟨fun v p h => (by cases h), fun k' p' h => ?_⟩
            cases h
            refine ⟨by omega, by omega, n + 1, by omega, ?_⟩
            rw [runSteps_succ_eq, e3]; rfl
          | some y =>
            simp only [hh] at e3 ⊢
            refine ⟨fun v p h => ?_, fun k' p' h => (by cases h)⟩
            cases h
            refine ⟨by omega, by omega, n + 1, by omega, ?_⟩
            rw [runSteps_succ_eq, e3]; rfl
        | false =>
          simp only [hc, Bool.false_eq_true, if_false] at e3 ⊢
          cases hh : textOk s.cfg ((s.frag.drop p).take v) with
          | false =>
            simp only [hh, Bool.false_eq_true, if_false] at e3 ⊢
            refine ⟨fun v p h => (by cases h), fun k' p' h => ?_⟩
            cases h
            refine ⟨by omega, by omega, n + 1, by omega, ?_⟩
            rw [runSteps_succ_eq, e3]; rfl
          | true =>
            simp only [hh, if_true] at e3 ⊢
            refine ⟨fun v p h => ?_, fun k' p' h => (by cases h)⟩
            cases h
            refine ⟨by omega, by omega, n + 1, by omega, ?_⟩
            rw [runSteps_succ_eq, e3]; rfl

/-! ## Literals and the first byte of a representation -/

theorem after_of_next {n : Nat} {r : Result} {t : State} (h : after n r = .next t) (m : Nat) : after (n + m) r = runSteps m t := by
  cases r with
  | next s => exact runSteps_add h m
  | fault => cases h
  | refused => cases h

/-- `DecodeLiteral` (41 R130) read byte by byte, from its first byte, just read. -/
theorem lit_sim (s : State) (hn : s.nc = false) (hl : s.pos ≤ s.frag.length) (k : LitKind) (N : Nat) (b : Byte) :
    (∀ h p, readLiteral s.cfg s.dt s.frag N b s.pos = .ok (h, p) →
      s.pos ≤ p ∧ p ≤ s.frag.length ∧ ∃ n, n ≤ p - s.pos ∧ after n (intPrefix N (b.toNat % 2^N) (.nameIndex k) s) = literalDone k h (s.setPos p)) ∧
    (∀ c p, readLiteral s.cfg s.dt s.frag N b s.pos = .error (c, p) →
      ∃ n, n ≤ s.frag.length - s.pos + 1 ∧ after n (intPrefix N (b.toNat % 2^N) (.nameIndex k) s) = .next (failed c (s.setPos p))) := by
  unfold readLiteral
  obtain ⟨i1, i2⟩ := int_sim s hn hl (.nameIndex k) N b
  cases hr : readInt s.frag N b s.pos with
  | error e =>
    obtain ⟨c, p⟩ := e
    refine ⟨fun _ _ h => (by cases h), fun c' p' h => ?_⟩
    cases h
    obtain ⟨a, b, n, e1, e2, e3⟩ := i2 c p hr
    exact ⟨n, e2, e3⟩
  | ok r =>
    obtain ⟨i, p⟩ := r
    obtain ⟨a, b', n, e1, e2⟩ := i1 i p hr
    dsimp only
    simp only [intDone, nameIndexDone] at e2
    -- the value string, from any point
    have val : ∀ (name : Bytes) (q n : Nat), p ≤ q → q ≤ s.frag.length → n ≤ q - s.pos →
        after n (intPrefix N (b.toNat % 2^N) (.nameIndex k) s) = .next ((s.setPos q).setWant (.str (.value k name))) →
        (∀ v p', readString s.cfg s.frag q = .ok (v, p') →
          s.pos ≤ p' ∧ p' ≤ s.frag.length ∧ ∃ n, n ≤ p' - s.pos ∧ after n (intPrefix N (b.toNat % 2^N) (.nameIndex k) s) = literalDone k ⟨name, v⟩ (s.setPos p')) ∧
        (∀ c p', readString s.cfg s.frag q = .error (c, p') →
          ∃ n, n ≤ s.frag.length - s.pos + 1 ∧ after n (intPrefix N (b.toNat % 2^N) (.nameIndex k) s) = .next (failed c (s.setPos p'))) := by
      intro name q n hq hq' hnq he
      obtain ⟨s1, s2⟩ := str_sim (s.setPos q) hn hq' (.value k name)
      refine ⟨fun v p' h => ?_, fun c p' h => ?_⟩
      · obtain ⟨a', b'', m, f1, f2⟩ := s1 v p' h
        change q < p' at a'; change p' ≤ s.frag.length at b''; change m ≤ p' - q at f1
        refine ⟨by omega, b'', n + m, by omega, ?_⟩
        rw [after_of_next he, f2]; rfl
      · obtain ⟨a', b'', m, f1, f2⟩ := s2 c p' h
        change q ≤ p' at a'; change p' ≤ s.frag.length at b''; change m ≤ s.frag.length - q + 1 at f1
        refine ⟨n + m, by omega, ?_⟩
        rw [after_of_next he, f2]; rfl
    by_cases hi : i = 0
    · rw [if_pos hi] at e2 ⊢
      obtain ⟨s1, s2⟩ := str_sim (s.setPos p) hn b' (.name k)
      change (∀ x p', readString s.cfg s.frag p = .ok (x, p') → p < p' ∧ p' ≤ s.frag.length ∧ ∃ n, n ≤ p' - p ∧ _) at s1
      change (∀ c p', readString s.cfg s.frag p = .error (c, p') → p ≤ p' ∧ p' ≤ s.frag.length ∧ ∃ n, n ≤ s.frag.length - p + 1 ∧ _) at s2
      cases hs : readString s.cfg s.frag p with
      | error e =>
        obtain ⟨c, p'⟩ := e
        refine ⟨fun _ _ h => (by cases h), fun c' p'' h => ?_⟩
        cases h
        obtain ⟨a1, a2, m, f1, f2⟩ := s2 c p' hs
        refine ⟨n + m, by omega, ?_⟩
        rw [after_of_next e2, f2]; rfl
      | ok r =>
        obtain ⟨name, p'⟩ := r
        obtain ⟨a1, a2, m, f1, f2⟩ := s1 name p' hs
        have hh : after (n + m) (intPrefix N (b.toNat % 2^N) (.nameIndex k) s) = .next ((s.setPos p').setWant (.str (.value k name))) := by
          rw [after_of_next e2, f2]; rfl
        obtain ⟨v1, v2⟩ := val name p' (n + m) (by omega) a2 (by omega) hh
        dsimp only
        cases hv : readString s.cfg s.frag p' with
        | error e =>
          obtain ⟨c, p2⟩ := e
          refine ⟨fun _ _ h => (by cases h), fun c' p'' h => ?_⟩
          cases h
          exact v2 c p2 hv
        | ok r =>
          obtain ⟨v, p2⟩ := r
          refine ⟨fun _ _ h => ?_, fun c' p'' h => (by cases h)⟩
          cases h
          exact v1 v p2 hv
    · rw [if_neg hi] at e2 ⊢
      change after n _ = match lookup i s.dt with | none => _ | some e => _ at e2
      cases hlk : lookup i s.dt with
      | none =>
        rw [hlk] at e2
        refine ⟨fun _ _ h => (by cases h), fun c' p'' h => ?_⟩
        cases h
        exact ⟨n, by omega, e2⟩
      | some e =>
        rw [hlk] at e2
        obtain ⟨v1, v2⟩ := val e.name p n le_rfl b' e1 e2
        dsimp only
        cases hv : readString s.cfg s.frag p with
        | error e =>
          obtain ⟨c, p2⟩ := e
          refine ⟨fun _ _ h => (by cases h), fun c' p'' h => ?_⟩
          cases h
          exact v2 c p2 hv
        | ok r =>
          obtain ⟨v, p2⟩ := r
          refine ⟨fun _ _ h => ?_, fun c' p'' h => (by cases h)⟩
          cases h
          exact v1 v p2 hv

theorem bit7_iff : ∀ b : Byte, b.extractLsb' 7 1 = 1#1 ↔ b.getLsbD 7 = true := by decide +kernel
theorem bits76_iff : ∀ b : Byte, b.getLsbD 7 = false → (b.extractLsb' 6 2 = 0b01#2 ↔ b.getLsbD 6 = true) := by decide +kernel
theorem bits74_ne_lnoidx : ∀ b : Byte, b.getLsbD 5 = true → ¬ b.extractLsb' 4 4 = 0b0000#4 := by decide +kernel
theorem bits74_ne_lnever : ∀ b : Byte, b.getLsbD 5 = true → ¬ b.extractLsb' 4 4 = 0b0001#4 := by decide +kernel
theorem bits74_eq_lnoidx : ∀ b : Byte, b.getLsbD 7 = false → b.getLsbD 6 = false → b.getLsbD 5 = false → (b.extractLsb' 4 4 = 0b0000#4 ↔ b.getLsbD 4 = false) := by decide +kernel
theorem bits74_eq_lnever : ∀ b : Byte, b.getLsbD 7 = false → b.getLsbD 6 = false → b.getLsbD 5 = false → (b.extractLsb' 4 4 = 0b0001#4 ↔ b.getLsbD 4 = true) := by decide +kernel

/-- The first byte of a representation as the tests of 42 R141 on its bits. -/
theorem exec_decodeRep (b : Byte) (s : State) (hn : s.nc = false) (hp : s.pass = some .rep) :
    exec (decodeRep b) s =
      if b.getLsbD 7 then intPrefix 7 (b.toNat % 2^7) .index s
      else if b.getLsbD 6 then intPrefix 6 (b.toNat % 2^6) (.nameIndex .linc) s
      else if b.getLsbD 5 then (if s.suok then intPrefix 5 (b.toNat % 2^5) .newSize s else raise .hSizeLate s)
      else intPrefix 4 (b.toNat % 2^4) (.nameIndex (repKind b)) s := by
  unfold decodeRep
  have r7 := bit7_iff b
  have r6 := bits76_iff b
  have r50 := bits74_ne_lnoidx b
  have r51 := bits74_ne_lnever b
  have r40 := bits74_eq_lnoidx b
  have r41 := bits74_eq_lnever b
  cases h7 : b.getLsbD 7 with
  | true => rw [if_pos (r7.mpr h7), if_pos rfl, exec, execIdx, atRep_eq hn hp, extractLow_toNat]
  | false =>
    have n7 : ¬ b.extractLsb' 7 1 = 1#1 := by rw [r7, h7]; simp
    rw [if_neg n7, if_neg Bool.false_ne_true]
    cases h6 : b.getLsbD 6 with
    | true =>
      rw [if_pos ((r6 h7).mpr h6), if_pos rfl]
      split
      · next h => rw [exec, execLincN, atRep_eq hn hp, mod_of_extractLow 6 b h]
      · next h => rw [exec, execLincI, atRep_eq hn hp, extractLow_toNat]
    | false =>
      have n6 : ¬ b.extractLsb' 6 2 = 0b01#2 := by rw [r6 h7, h6]; simp
      rw [if_neg n6, if_neg Bool.false_ne_true]
      cases h5 : b.getLsbD 5 with
      | true =>
        rw [if_neg (r50 h5), if_neg (r51 h5), if_pos rfl, exec, execDtsu, atRep_eq hn hp, extractLow_toNat]
      | false =>
        rw [if_neg Bool.false_ne_true]
        unfold repKind
        cases h4 : b.getLsbD 4 with
        | false =>
          rw [if_pos ((r40 h7 h6 h5).mpr h4), if_neg Bool.false_ne_true]
          split
          · next h => rw [exec, execLnoidxN, atRep_eq hn hp, mod_of_extractLow 4 b h]
          · next h => rw [exec, execLnoidxI, atRep_eq hn hp, extractLow_toNat]
        | true =>
          have n4 : ¬ b.extractLsb' 4 4 = 0b0000#4 := by rw [r40 h7 h6 h5, h4]; simp
          rw [if_neg n4, if_pos ((r41 h7 h6 h5).mpr h4), if_pos rfl]
          split
          · next h => rw [exec, execLneverN, atRep_eq hn hp, mod_of_extractLow 4 b h]
          · next h => rw [exec, execLneverI, atRep_eq hn hp, extractLow_toNat]

end Sys2Proof.Machine
end

