-- ==== Sys2Proof/Laws/PerInstr.lean ====
section
/-! SUPPORT. The family RoundTrip: of each row of the table, that its encoding decodes back in the place it is read in. -/

namespace Sys2Proof.Laws.RoundTrip

/-- The encoding of a well-formed unit, followed by anything, decodes to the unit and leaves what follows. -/
def Statement (i : Instr) : Prop :=
  i.wf = true → ∀ rest : Bytes, decode i.slot (encode i ++ rest) = .ok (i, rest)

theorem idx (i : BitVec 7) : Statement (.idx i) := fun _ rest => by
  simp [Instr.slot, encode, decode, decodeOctet, decodeRep_idx]
theorem lincN : Statement .lincN := fun _ rest => by
  simp [Instr.slot, encode, decode, decodeOctet, decodeRep_lincN]
theorem lincI (i : BitVec 6) : Statement (.lincI i) := fun h rest => by
  simp [Instr.slot, encode, decode, decodeOctet, decodeRep_lincI i (by simpa [Instr.wf] using h)]
theorem lnoidxN : Statement .lnoidxN := fun _ rest => by
  simp [Instr.slot, encode, decode, decodeOctet, decodeRep_lnoidxN]
theorem lnoidxI (i : BitVec 4) : Statement (.lnoidxI i) := fun h rest => by
  simp [Instr.slot, encode, decode, decodeOctet, decodeRep_lnoidxI i (by simpa [Instr.wf] using h)]
theorem lneverN : Statement .lneverN := fun _ rest => by
  simp [Instr.slot, encode, decode, decodeOctet, decodeRep_lneverN]
theorem lneverI (i : BitVec 4) : Statement (.lneverI i) := fun h rest => by
  simp [Instr.slot, encode, decode, decodeOctet, decodeRep_lneverI i (by simpa [Instr.wf] using h)]
theorem dtsu (s : BitVec 5) : Statement (.dtsu s) := fun _ rest => by
  simp [Instr.slot, encode, decode, decodeOctet, decodeRep_dtsu]
theorem strRaw (l : BitVec 7) : Statement (.strRaw l) := fun _ rest => by
  simp [Instr.slot, encode, decode, decodeOctet, decodeStr_raw]
theorem strHuf (l : BitVec 7) : Statement (.strHuf l) := fun _ rest => by
  simp [Instr.slot, encode, decode, decodeOctet, decodeStr_huf]
theorem intCont (g : BitVec 7) : Statement (.intCont g) := fun _ rest => by
  simp [Instr.slot, encode, decode, decodeOctet, decodeCont_cont]
theorem intLast (g : BitVec 7) : Statement (.intLast g) := fun _ rest => by
  simp [Instr.slot, encode, decode, decodeOctet, decodeCont_last]
theorem frameHdr (length : BitVec 24) (type flags : BitVec 8) (r : Bool) (streamId : BitVec 31) :
    Statement (.frameHdr length type flags r streamId) := fun _ rest => by
  simp [Instr.slot, encode, decode_headerBytes]

end Sys2Proof.Laws.RoundTrip
end

