-- ==== Sys2Proof/Tests/Slice0.lean ====
section
/-! SUPPORT. The model's own tests. Expected results come from 30_encoding and 95_test_vectors, named in each docstring;
a theorem test_witness_X shows states and operands that meet the hypotheses of Obligations.X, each clause at a boundary. -/

-- One theorem after another: checked all at once, their stacks alone exceed the memory limit.
set_option Elab.async false

namespace Sys2Proof.Tests

open Sys2Proof Sys2Proof.Machine

/-! ## Helpers -/

/-- A pass on a fresh block, over a fragment, with the cursor at `p`, reading for `w`. -/
def inPass (w : Want) (frag : Bytes) (p : Nat) : State := { State.reset with pass := some w, frag := frag, pos := p }

/-- The table of E1: one entry (a, b). -/
def tableAb : List Header := [⟨[0x61], [0x62]⟩]

/-- A fresh block with bytes in IB and operations of the host pending. -/
def atRest (ib : Bytes) (ops : List HostOp) : State := { State.reset with ib := ib, host := ops }

/-- A fresh block in phase FB that awaits 4 bytes of payload (F32's header), with bytes in IB and operations pending. -/
def awaiting (ib : Bytes) (ops : List HostOp) : State :=
  { atRest ib ops with phase := .fb, ph := some ⟨4, 8, 0, 0, false⟩ }

/-- The same with a payload of 20 bytes (F2's header). -/
def awaitingLong (ib : Bytes) (ops : List HostOp) : State :=
  { atRest ib ops with phase := .fb, ph := some ⟨20, 1, 4, 1, false⟩ }

/-- The next state of an answer. -/
def nextState : Result → Option State
  | .next t => some t
  | .fault _ => none
  | .refused _ => none

/-- What ends `OUT` after an answer. -/
def lastItem (r : Result) : Option Item := (nextState r).bind fun t => t.out.getLast?

/-- What the pass reads after an answer. -/
def wantOf (r : Result) : Option Want := (nextState r).bind State.pass

/-- The dynamic table after an answer. -/
def tableOf (r : Result) : Option (List Header) := (nextState r).map State.dt

/-! ## Well-formedness: every check refuses an ill-formed term, and takes its neighbour -/

theorem test_wf_lincI : (Instr.lincI 0).wf = false ∧ (Instr.lincI 1).wf = true := by decide
theorem test_wf_lnoidxI : (Instr.lnoidxI 0).wf = false ∧ (Instr.lnoidxI 1).wf = true := by decide
theorem test_wf_lneverI : (Instr.lneverI 0).wf = false ∧ (Instr.lneverI 1).wf = true := by decide

/-! ## Decoding: words written out bit by bit from 30_encoding R71 to R80 -/

/-- Table row `1iiiiiii` with i = 2 (L1). -/
theorem test_decode_idx : decode (.octet .rep) [0b10000010] = .ok (.idx 2, []) := rfl
/-- `01000000` (T1). -/
theorem test_decode_lincN : decode (.octet .rep) [0b01000000] = .ok (.lincN, []) := rfl
/-- `01iiiiii` with i = 62 (T10). -/
theorem test_decode_lincI : decode (.octet .rep) [0b01111110] = .ok (.lincI 62, []) := rfl
/-- `00000000` (T5). -/
theorem test_decode_lnoidxN : decode (.octet .rep) [0b00000000] = .ok (.lnoidxN, []) := rfl
/-- `0000iiii` with i = 4 (T3). -/
theorem test_decode_lnoidxI : decode (.octet .rep) [0b00000100] = .ok (.lnoidxI 4, []) := rfl
/-- `00010000` (T4). -/
theorem test_decode_lneverN : decode (.octet .rep) [0b00010000] = .ok (.lneverN, []) := rfl
/-- `0001iiii` with i = 9. -/
theorem test_decode_lneverI : decode (.octet .rep) [0b00011001] = .ok (.lneverI 9, []) := rfl
/-- `001sssss` with s = 31 and s = 0 (Z1, Z2). -/
theorem test_decode_dtsu : decode (.octet .rep) [0b00111111] = .ok (.dtsu 31, []) ∧
    decode (.octet .rep) [0b00100000] = .ok (.dtsu 0, []) := ⟨rfl, rfl⟩
/-- `0LLLLLLL` with L = 15 (T2). -/
theorem test_decode_strRaw : decode (.octet .str) [0b00001111] = .ok (.strRaw 15, []) := rfl
/-- `1LLLLLLL` with L = 12 (H20). -/
theorem test_decode_strHuf : decode (.octet .str) [0b10001100] = .ok (.strHuf 12, []) := rfl
/-- `1ggggggg` with g = 26 (I2, 9A). -/
theorem test_decode_intCont : decode (.octet .int) [0b10011010] = .ok (.intCont 26, []) := rfl
/-- `0ggggggg` with g = 10 (I2, 0A). -/
theorem test_decode_intLast : decode (.octet .int) [0b00001010] = .ok (.intLast 10, []) := rfl
/-- The nine bytes of F11, the start of the connection preface: length 0x505249, type 32, flags 42, stream 541611092. -/
theorem test_decode_frameHdr :
    decode .frame [0x50, 0x52, 0x49, 0x20, 0x2A, 0x20, 0x48, 0x54, 0x54] =
      .ok (.frameHdr 5263945 32 42 false 541611092, []) := rfl
/-- F8: the reserved bit is bit 7 of byte 5 and is stripped from the stream id. -/
theorem test_decode_frameHdr_reserved :
    decode .frame [0x00, 0x00, 0x00, 0x04, 0x00, 0xFF, 0xFF, 0xFF, 0xFF] =
      .ok (.frameHdr 0 4 0 true 2147483647, []) := rfl
/-- F3: eight bytes are no header. -/
theorem test_decode_short : decode .frame [0, 0, 0, 4, 0, 0, 0, 0] = .error .headerShort ∧
    decode (.octet .rep) [] = .error .noByte := ⟨rfl, rfl⟩
/-- The table's own numbering: an 8-bit row, and the 72-bit row whose bits 71 to 48 are the length. -/
theorem test_decode_table : decodeTableWord 8 0x82 = some (.idx 2) ∧
    decodeTableWord 72 0x000014010400000001 = some (.frameHdr 20 1 4 false 1) := ⟨rfl, rfl⟩

/-! ## One step of each unit -/

/-- L1: `82` yields (":method", "GET"). -/
theorem test_idx_static : lastItem (exec (.idx 2) (inPass .rep [0x82] 1)) =
    some (.ok ⟨ascii ":method", ascii "GET"⟩) := by decide +kernel
/-- L4: `81`, a row with a name only, and L5: `80`. -/
theorem test_idx_errors : lastItem (exec (.idx 1) (inPass .rep [0x81] 1)) = some (.err .hNoValue) ∧
    lastItem (exec (.idx 0) (inPass .rep [0x80] 1)) = some (.err .hIndexZero) := by decide +kernel
/-- T6: `40` reads a name string next. -/
theorem test_lincN_name : wantOf (exec .lincN (inPass .rep [0x40, 0x00, 0x00] 1)) = some (.str (.name .linc)) := by
  decide +kernel
/-- T7: `50` takes the name of row 16 and reads the value string. -/
theorem test_lincI_row : wantOf (exec (.lincI 16) (inPass .rep [0x50, 0x01, 0x61] 1)) =
    some (.str (.value .linc (ascii "accept-encoding"))) := by decide +kernel
/-- T10: `7E` names index 62 of an empty table. -/
theorem test_lincI_range : lastItem (exec (.lincI 62) (inPass .rep [0x7E, 0x01, 0x61] 1)) = some (.err .hIndexRange) := by
  decide +kernel
/-- T5: `00` reads a name string next. -/
theorem test_lnoidxN_name : wantOf (exec .lnoidxN (inPass .rep [0x00, 0x01] 1)) = some (.str (.name .lnoidx)) := by
  decide +kernel
/-- T3: `04` takes the name of row 4. -/
theorem test_lnoidxI_row : wantOf (exec (.lnoidxI 4) (inPass .rep [0x04] 1)) =
    some (.str (.value .lnoidx (ascii ":path"))) := by decide +kernel
/-- T8: `0F` is followed by a continuation byte; I and m of R122 start at 15 and 0. -/
theorem test_lnoidxI_long : wantOf (exec (.lnoidxI 15) (inPass .rep [0x0F, 0x2E] 1)) =
    some (.cont (.nameIndex .lnoidx) 15 0) := by decide +kernel
/-- T4: `10` reads a name string next. -/
theorem test_lneverN_name : wantOf (exec .lneverN (inPass .rep [0x10, 0x08] 1)) = some (.str (.name .lnever)) := by
  decide +kernel
/-- `18` takes the name of row 8 (S4: index 8 is ":status"). -/
theorem test_lneverI_row : wantOf (exec (.lneverI 8) (inPass .rep [0x18] 1)) =
    some (.str (.value .lnever (ascii ":status"))) := by decide +kernel
/-- Z1 with a table: `20` sets MTS to 0 and empties DT. -/
theorem test_dtsu_zero : (nextState (exec (.dtsu 0) { inPass .rep [0x20] 1 with dt := tableAb })).map
    (fun t => (t.mts, t.dt, t.pass)) = some (0, [], some .rep) := by decide +kernel
/-- Z4: a size update after a field. -/
theorem test_dtsu_late : lastItem (exec (.dtsu 0) { inPass .rep [0x82, 0x20] 2 with suok := false }) =
    some (.err .hSizeLate) := by decide +kernel
/-- E1: `Insert("c", "d")` under MTS 64 evicts (a, b). -/
theorem test_strRaw_inserts : tableOf (exec (.strRaw 1)
    { inPass (.str (.value .linc [0x63])) [0x01, 0x64] 1 with dt := tableAb, mts := 64 }) =
    some [⟨[0x63], [0x64]⟩] := by decide +kernel
/-- T13: value length 3 with two bytes left. -/
theorem test_strRaw_truncated : lastItem (exec (.strRaw 3) (inPass (.str (.value .linc [0x63])) [0x41, 0x03, 0x61, 0x62] 2)) =
    some (.err .hTrunc) := by decide +kernel
/-- 95 section 5: `1F` is "a" with padding 111; the value "a" is emitted. -/
theorem test_strHuf_value : lastItem (exec (.strHuf 1) (inPass (.str (.value .lnever [0x78])) [0x81, 0x1F] 1)) =
    some (.ok ⟨[0x78], [0x61]⟩) := by decide +kernel
/-- H21: the padding 000 is no prefix of EOS. -/
theorem test_strHuf_error : lastItem (exec (.strHuf 1) (inPass (.str (.value .linc [0x78])) [0x41, 0x81, 0x00] 2)) =
    some (.err .hHuffman) := by decide +kernel
/-- I2, second byte: 31 + 26, and another byte follows. -/
theorem test_intCont_group : wantOf (exec (.intCont 26) (inPass (.cont .newSize 31 0) [0x3F, 0x9A, 0x0A] 2)) =
    some (.cont .newSize 57 1) := by decide +kernel
/-- I2, third byte: 57 + 10 * 128 = 1337 goes into MTS. -/
theorem test_intLast_value : (nextState (exec (.intLast 10) (inPass (.cont .newSize 57 1) [0x3F, 0x9A, 0x0A] 3))).map
    State.mts = some 1337 := by decide +kernel
/-- T19, last byte: 2^32 overflows. -/
theorem test_intLast_overflow : lastItem (exec (.intLast 15)
    (inPass (.cont (.strLen false (.name .lnoidx)) 268435456 4) [] 0)) = some (.err .hIntOverflow) := by decide +kernel
/-- F44: a header with `length = MAXF` is kept. -/
theorem test_frameHdr_accepted : (nextState (exec (.frameHdr 16384 0 0 false 0) State.reset)).map
    (fun t => (t.phase, t.ph, t.nc)) = some (.fb, some ⟨16384, 0, 0, 0, false⟩, false) := by decide +kernel
/-- F43 and F45: one byte too long, or the reserved bit set, sets NC and keeps the phase. -/
theorem test_frameHdr_fails : (nextState (exec (.frameHdr 16385 0 0 false 0) State.reset)).map
      (fun t => (t.phase, t.ph, t.nc)) = some (.fh, none, true) ∧
    (nextState (exec (.frameHdr 0 4 0 true 1) State.reset)).map State.nc = some true := by decide +kernel

/-! ## Shared operations -/

/-- H1 to H3, H5, H6 and H11 of 95 section 5. -/
theorem test_huffman_strings :
    huffStandard [0xF1, 0xE3, 0xC2, 0xE5, 0xF2, 0x3A, 0x6B, 0xA0, 0xAB, 0x90, 0xF4, 0xFF] = some (ascii "www.example.com") ∧
    huffStandard [0xA8, 0xEB, 0x10, 0x64, 0x9C, 0xBF] = some (ascii "no-cache") ∧
    huffStandard [0x25, 0xA8, 0x49, 0xE9, 0x5B, 0xA9, 0x7D, 0x7F] = some (ascii "custom-key") ∧
    huffStandard [0x64, 0x02] = some (ascii "302") ∧
    huffStandard [0x64, 0x0E, 0xFF] = some (ascii "307") ∧
    huffStandard [0x9B, 0xD9, 0xAB] = some (ascii "gzip") := by decide +kernel
/-- The edge cases of 95 section 5. -/
theorem test_huffman_edges : huffStandard [] = some [] ∧ huffStandard [0x00] = none ∧
    huffStandard [0xFF, 0xFF, 0xFF, 0xFF] = none ∧ huffStandard [0xFF] = none ∧ huffStandard [0x07] = some [0x30] := by
  decide +kernel
/-- 95 section 3.1. -/
theorem test_encodeInt : encodeInt 5 1337 0 = [0x1F, 0x9A, 0x0A] ∧ encodeInt 6 1337 0 = [0x3F, 0xFA, 0x09] ∧
    encodeInt 7 62 0x80 = [0xBE] ∧ encodeInt 6 63 0x40 = [0x7F, 0x00] ∧ encodeInt 5 256 0x20 = [0x3F, 0xE1, 0x01] := by
  decide +kernel
/-- E2, E3 and E4: an exact fit is kept, an entry too large empties the table. -/
theorem test_inserted : inserted 68 ⟨[0x63], [0x64]⟩ tableAb = [⟨[0x63], [0x64]⟩, ⟨[0x61], [0x62]⟩] ∧
    inserted 40 ⟨ascii "name", ascii "value"⟩ tableAb = [] ∧
    inserted 34 ⟨[0x63], [0x64]⟩ tableAb = [⟨[0x63], [0x64]⟩] := by decide +kernel
/-- F31. -/
theorem test_frameEncode : frameEncode 5 1 4 1 [0x82, 0x86, 0x84, 0x41, 0x00] =
    [0x00, 0x00, 0x05, 0x01, 0x04, 0x00, 0x00, 0x00, 0x01, 0x82, 0x86, 0x84, 0x41, 0x00] := by decide +kernel
/-- 95 section 4.2, last line: `TextOk` that rejects FF. -/
theorem test_textOk : textOk { Params.default with textOk := .rejecting [0xFF] } [0xFF] = false ∧
    textOk Params.default [0xFF] = true := by decide

/-! ## Witnesses: the hypotheses of the statements can be met, each clause at its boundary -/

theorem test_witness_DecodeOfEncode : (Instr.lincI 1).wf = true ∧ (Instr.lincI 63).wf = true := by decide +kernel
theorem test_witness_EncodeOfDecode : decode (.octet .int) [0xFF, 0x00] = .ok (.intCont 127, [0x00]) := rfl
theorem test_witness_FirstByteMap :
    decodeOctet .rep 0x00 = .lnoidxN ∧ decodeOctet .rep 0x01 = .lnoidxI 1 ∧ decodeOctet .rep 0x0F = .lnoidxI 15 ∧
    decodeOctet .rep 0x10 = .lneverN ∧ decodeOctet .rep 0x11 = .lneverI 1 ∧ decodeOctet .rep 0x1F = .lneverI 15 ∧
    decodeOctet .rep 0x20 = .dtsu 0 ∧ decodeOctet .rep 0x3F = .dtsu 31 ∧ decodeOctet .rep 0x40 = .lincN ∧
    decodeOctet .rep 0x41 = .lincI 1 ∧ decodeOctet .rep 0x7F = .lincI 63 ∧ decodeOctet .rep 0x80 = .idx 0 ∧
    decodeOctet .rep 0xFF = .idx 127 := by decide +kernel
theorem test_witness_StringAndContinuationBytes :
    decodeOctet .str 0x7F = .strRaw 127 ∧ decodeOctet .int 0x7F = .intLast 127 ∧
    decodeOctet .str 0x80 = .strHuf 0 ∧ decodeOctet .int 0x80 = .intCont 0 := by decide +kernel

/-- The three forms of the host's turn at their boundaries: a delivery, 8 bytes in phase FH, 3 of 4 bytes in phase FB. -/
theorem test_hostsTurn : HostsTurn { atRest [] [] with ackDue := true } ∧ HostsTurn (atRest [1, 2, 3, 4, 5, 6, 7, 8] []) ∧
    HostsTurn (awaiting [1, 2, 3] []) :=
  ⟨⟨rfl, .inl rfl⟩, ⟨rfl, .inr (.inl ⟨rfl, by decide⟩)⟩, ⟨rfl, .inr (.inr ⟨_, rfl, rfl, rfl, by decide⟩)⟩⟩

/-- `RESET` with `NC = 1`, after a delivery, at rest with 8 bytes in IB, and with a payload one byte short. -/
theorem test_witness_ResetOperation :
    nextState (step { atRest [1] [.reset] with nc := true }) = some State.reset ∧
    nextState (step { atRest [] [.reset] with ackDue := true }) = some State.reset ∧
    nextState (step (atRest [1, 2, 3, 4, 5, 6, 7, 8] [.reset])) = some State.reset ∧
    nextState (step (awaiting [1, 2, 3] [.reset])) = some State.reset := by decide +kernel

theorem test_witness_StepKeepsInvariant : State.reset.Inv ∧ nextState (step State.reset) = some State.reset := by
  refine ⟨?_, by decide +kernel⟩
  constructor <;> simp [State.reset, State.resetWith, outShape, Memory.wf, Params.default]

/-- The two refusals of R220 are reached from states with the invariant. -/
theorem test_witness_OnlyTheRefusalsOfR220 :
    (State.reset.close.setHost [.decodeBlock []]).Inv ∧
    step (State.reset.close.setHost [.decodeBlock []]) = .refused .afterClose ∧
    step (State.reset.setHost [.fbParse ⟨0, 0, 0, 0, true⟩]) = .refused .failingHeader := by
  refine ⟨?_, rfl, rfl⟩
  constructor <;> simp [State.close, State.setHost, State.reset, State.resetWith, outShape, Memory.wf, Params.default]

theorem test_witness_StepRunsTheDecodedUnit :
    (inPass .rep [0x82] 0).frag[(inPass .rep [0x82] 0).pos]? = some 0x82 ∧
    lastItem (step (inPass .rep [0x82] 0)) = some (.ok ⟨ascii ":method", ascii "GET"⟩) ∧
    decode .frame (atRest [0, 0, 0, 4, 0, 0, 0, 0, 0] []).ib = .ok (.frameHdr 0 4 0 false 0, []) ∧
    (nextState (step (atRest [0, 0, 0, 4, 0, 0, 0, 0, 0] []))).map State.phase = some .fb := by decide +kernel

theorem test_witness_EndOfTheFragment :
    nextState (step (inPass .rep [0x82] 1)) = some { inPass .rep [0x82] 1 with pass := none } ∧
    lastItem (step (inPass (.str (.name .linc)) [0x40] 1)) = some (.err .hTrunc) ∧
    lastItem (step (inPass (.cont .index 127 0) [0xFF] 1)) = some (.err .hTrunc) := by decide +kernel

/-- With `NC = 1`: SET_MAXF; a FEED that exceeds a finite IB_CAP (log 8); a direct parse (log 4). -/
theorem test_witness_CloseFreezesTheState :
    nextState (step { atRest [1] [.setMaxf 5, .ack] with nc := true }) = some { atRest [1] [.ack] with nc := true } ∧
    nextState (step { atRest [1] [.feed [2, 3]] with nc := true, cfg := { Params.default with ibCap := some 2 } }) =
      some { atRest [1] [] with nc := true, cfg := { Params.default with ibCap := some 2 } } ∧
    nextState (step { atRest [1, 2, 3, 4, 5, 6, 7, 8, 9] [.fhParse] with nc := true }) =
      some { atRest [1, 2, 3, 4, 5, 6, 7, 8, 9] [] with nc := true } :=
  ⟨by decide +kernel, by decide +kernel, by decide +kernel⟩

theorem test_witness_ConfigurationWriters :
    nextState (step (atRest [] [.setMaxf 5])) = some { State.reset with maxf := 5 } ∧
    nextState (step (atRest [] [.setCmax 5])) = some { State.reset with cmax := 5 } := by decide +kernel

theorem test_witness_UnitsDoNotInterfere :
    (nextState (step (inPass .rep [0x82] 0))).isSome = true ∧
    (nextState (step (atRest [0, 0, 0, 4, 0, 0, 0, 0, 0] [.ack]))).map State.host = some [.ack] := by decide +kernel

theorem test_witness_CursorOnlyAdvances :
    (nextState (step (inPass (.str (.name .linc)) [0x02, 0x61, 0x62] 0))).map State.pos = some 3 := by decide +kernel

/-- Each unit that an all-ones field continues, in the place it is read. -/
theorem test_witness_AllOnesPrefixContinues :
    wantOf (exec (.idx 127) (inPass .rep [] 0)) = some (.cont .index 127 0) ∧
    wantOf (exec (.dtsu 31) (inPass .rep [] 0)) = some (.cont .newSize 31 0) ∧
    wantOf (exec (.strHuf 127) (inPass (.str (.name .linc)) [] 0)) = some (.cont (.strLen true (.name .linc)) 127 0) := by
  decide +kernel

theorem test_witness_ContinuationByteAccumulates :
    (inPass (.cont .index 127 0) [] 0).nc = false ∧ (inPass (.cont .index 127 0) [] 0).pass = some (.cont .index 127 0) := by
  decide +kernel

/-- I7: 127 + 1 + 127 * (2^7 + 2^14 + 2^21) + 15 * 2^28 is 2^32. -/
theorem test_witness_IntegerOverflowIsAnError :
    2 ^ 32 - 1 < 268435456 + (15 : BitVec 7).toNat * 2 ^ (7 * 4) ∧
    ¬ 2 ^ 32 - 1 < 268435455 + (15 : BitVec 7).toNat * 2 ^ (7 * 4) := by decide +kernel

/-- I2 with bytes before and after. -/
theorem test_witness_ContinuationBytesSumUp :
    (inPass (.cont .newSize 31 0) [0x3F, 0x9A, 0x0A, 0x82] 1).frag = [0x3F] ++ groupBytes [26] 10 ++ [0x82] ∧
    31 + groupSum [26, 10] 0 = 1337 := by decide +kernel

/-- The ends of the range of `EncodeInt`, with bits above the prefix. -/
theorem test_witness_EncodedIntegerDecodes :
    (0x20 : Byte).toNat % 2 ^ 5 = 0 ∧ readInt [0x3E] 5 0x3E 1 = .ok (30, 1) ∧
    encodeInt 5 30 0x20 = [0x3E] ∧ encodeInt 5 (2 ^ 32 - 1) 0x20 = [0x3F, 0xE0, 0xFF, 0xFF, 0xFF, 0x0F] ∧
    readInt [0x3F, 0xE0, 0xFF, 0xFF, 0xFF, 0x0F] 5 0x3F 1 = .ok (2 ^ 32 - 1, 6) := by decide +kernel

/-- A length one above, and exactly, what is left; octets that are rejected. -/
theorem test_witness_RawStringErrors :
    Delivers (.strLen false (.name .linc)) (.strRaw 2) (inPass (.str (.name .linc)) [0x02, 0x61] 1) 2 ∧
    Delivers (.strLen false (.name .linc)) (.strRaw 1)
      { inPass (.str (.name .linc)) [0x01, 0xFF] 1 with cfg := { Params.default with textOk := .rejecting [0xFF] } } 1 ∧
    textOk { Params.default with textOk := .rejecting [0xFF] } [0xFF] = false :=
  ⟨⟨rfl, _, rfl, rfl, by decide +kernel, rfl⟩, ⟨rfl, _, rfl, rfl, by decide +kernel, rfl⟩, rfl⟩

theorem test_witness_RawNameString :
    Delivers (.strLen false (.name .lnever)) (.strRaw 1) (inPass (.str (.name .lnever)) [0x01, 0x61] 1) 1 ∧
    textOk Params.default [0x61] = true :=
  ⟨⟨rfl, _, rfl, rfl, by decide +kernel, rfl⟩, rfl⟩

/-- By the first byte, with length 126, and by a continuation byte, with length 127. -/
theorem test_witness_RawValueEndsUnindexedLiteral :
    Delivers (.strLen false (.value .lnoidx [0x61])) (.strRaw 126)
      (inPass (.str (.value .lnoidx [0x61])) (0x7E :: List.replicate 126 0x62) 1) 126 ∧
    Delivers (.strLen false (.value .lnoidx [0x61])) (.intLast 0)
      (inPass (.cont (.strLen false (.value .lnoidx [0x61])) 127 0) (0x7F :: 0x00 :: List.replicate 127 0x62) 2) 127 ∧
    (List.replicate 127 (0x62 : Byte)).length = 127 :=
  ⟨⟨rfl, _, rfl, rfl, by decide +kernel, rfl⟩, ⟨rfl, _, _, rfl, by decide +kernel, by decide +kernel⟩, rfl⟩

theorem test_witness_RawValueEndsIndexedLiteral :
    Delivers (.strLen false (.value .linc [0x63])) (.strRaw 1) (inPass (.str (.value .linc [0x63])) [0x01, 0x64] 1) 1 :=
  ⟨rfl, _, rfl, rfl, by decide +kernel, rfl⟩

/-- Truncated, an error of `HUFF`, an answer; the three uses of a string. -/
theorem test_witness_HuffmanStringIsDelegated :
    Delivers (.strLen true (.name .linc)) (.strHuf 1) (inPass (.str (.name .linc)) [0x81] 1) 1 ∧
    Delivers (.strLen true (.value .linc [0x61])) (.strHuf 1) (inPass (.str (.value .linc [0x61])) [0x81, 0x00] 1) 1 ∧
    Delivers (.strLen true (.value .lnoidx [0x61])) (.strHuf 1) (inPass (.str (.value .lnoidx [0x61])) [0x81, 0x1F] 1) 1 ∧
    huff Params.default [0x00] = none ∧ huff Params.default [0x1F] = some [0x61] :=
  ⟨⟨rfl, _, rfl, rfl, by decide +kernel, rfl⟩, ⟨rfl, _, rfl, rfl, by decide +kernel, rfl⟩, ⟨rfl, _, rfl, rfl, by decide +kernel, rfl⟩,
    by decide +kernel, by decide +kernel⟩

/-- A raw string, whose want is no coded length. -/
theorem test_witness_OnlyHuffmanStringsDependOnHuff :
    (∀ l, Instr.strRaw 1 ≠ .strHuf l) ∧
    (∀ w acc m, (inPass (.str (.name .linc)) [0x01, 0x61] 1).pass ≠ some (.cont (.strLen true w) acc m)) ∧
    (nextState (exec (.strRaw 1) (inPass (.str (.name .linc)) [0x01, 0x61] 1))).isSome = true :=
  ⟨by simp, by simp [inPass], by decide +kernel⟩

/-- The first symbol, the last octet and EOS. -/
theorem test_witness_HuffmanCodesDecode :
    huffTable[0]? = some (0x1ff8, 13) ∧ huffTable[255]? = some (0x3ffffee, 26) ∧
    huffTable[256]? = some (0x3fffffff, 30) := by decide +kernel

theorem test_witness_LookupIsStaticThenDynamic :
    (lookup 1 tableAb).map Entry.name = some (ascii ":authority") ∧
    (lookup 61 tableAb).map Entry.name = some (ascii "www-authenticate") ∧
    lookup 62 tableAb = some ⟨[0x61], some [0x62]⟩ ∧ tableAb[0]? = some ⟨[0x61], [0x62]⟩ ∧
    61 + tableAb.length < 63 ∧ lookup 63 tableAb = none := by decide +kernel

/-- Z11 and Z12: two entries of 34 under 68 and under 67. -/
theorem test_witness_EvictionKeepsTheNewest :
    evict 68 (⟨[0x63], [0x64]⟩ :: tableAb) = ⟨[0x63], [0x64]⟩ :: tableAb ∧
    evict 67 (⟨[0x63], [0x64]⟩ :: tableAb) = [⟨[0x63], [0x64]⟩] ∧ evict (-1) tableAb = [] := by decide +kernel

/-- E4 and one octet of bound less. -/
theorem test_witness_InsertionPolicy :
    inserted 34 ⟨[0x63], [0x64]⟩ tableAb = [⟨[0x63], [0x64]⟩] ∧ inserted 33 ⟨[0x63], [0x64]⟩ tableAb = [] := by
  decide +kernel

/-- Index 0, a row without and a row with value, the newest entry, and one beyond it; index 127 by a continuation byte. -/
theorem test_witness_IndexedField :
    Delivers .index (.idx 0) (inPass .rep [] 0) 0 ∧ Delivers .index (.idx 62) (inPass .rep [] 0) 62 ∧
    Delivers .index (.idx 1) (inPass .rep [] 0) 1 ∧ staticTable[0]? = some ⟨ascii ":authority", none⟩ ∧
    Delivers .index (.idx 16) (inPass .rep [] 0) 16 ∧
    staticTable[15]? = some ⟨ascii "accept-encoding", some (ascii "gzip, deflate")⟩ ∧
    Delivers .index (.idx 62) { inPass .rep [] 0 with dt := tableAb } 62 ∧ tableAb[62 - 62]? = some ⟨[0x61], [0x62]⟩ ∧
    Delivers .index (.intLast 0) (inPass (.cont .index 127 0) [] 0) 127 :=
  ⟨⟨rfl, rfl, rfl, by decide +kernel, rfl⟩, ⟨rfl, rfl, rfl, by decide +kernel, rfl⟩, ⟨rfl, rfl, rfl, by decide +kernel, rfl⟩, by decide +kernel,
    ⟨rfl, rfl, rfl, by decide +kernel, rfl⟩, by decide +kernel, ⟨rfl, rfl, rfl, by decide +kernel, rfl⟩, rfl,
    ⟨rfl, _, _, rfl, by decide +kernel, by decide +kernel⟩⟩

/-- Each of the six literal units completes its name index; the last static row by a continuation byte (T8). -/
theorem test_witness_LiteralName :
    Delivers (.nameIndex .linc) .lincN (inPass .rep [] 0) 0 ∧
    Delivers (.nameIndex .lnoidx) .lnoidxN (inPass .rep [] 0) 0 ∧
    Delivers (.nameIndex .lnever) .lneverN (inPass .rep [] 0) 0 ∧
    Delivers (.nameIndex .linc) (.lincI 62) { inPass .rep [] 0 with dt := tableAb } 62 ∧
    Delivers (.nameIndex .lnoidx) (.lnoidxI 1) (inPass .rep [] 0) 1 ∧
    Delivers (.nameIndex .lnever) (.lneverI 14) (inPass .rep [] 0) 14 ∧
    Delivers (.nameIndex .lnoidx) (.intLast 46) (inPass (.cont (.nameIndex .lnoidx) 15 0) [] 0) 61 ∧
    Delivers (.nameIndex .linc) (.lincI 62) (inPass .rep [] 0) 62 ∧ 61 + (inPass .rep [] 0).dt.length < 62 :=
  ⟨⟨rfl, rfl, rfl, rfl⟩, ⟨rfl, rfl, rfl, rfl⟩, ⟨rfl, rfl, rfl, rfl⟩, ⟨rfl, rfl, rfl, by decide +kernel, rfl⟩,
    ⟨rfl, rfl, rfl, by decide +kernel, rfl⟩, ⟨rfl, rfl, rfl, by decide +kernel, rfl⟩, ⟨rfl, _, _, rfl, by decide +kernel, by decide +kernel⟩,
    ⟨rfl, rfl, rfl, by decide +kernel, rfl⟩, by decide +kernel⟩

/-- Z2 and Z3: CMAX, by its last continuation byte, and one more; Z13, Z14: in the first byte. -/
theorem test_witness_SizeUpdate :
    Delivers .newSize (.intLast 31) (inPass (.cont .newSize 128 1) [] 0) 4096 ∧
    Delivers .newSize (.intLast 31) (inPass (.cont .newSize 129 1) [] 0) 4097 ∧
    State.reset.cmax.toNat = 4096 ∧
    Delivers .newSize (.dtsu 1) { inPass .rep [] 0 with cmax := 1 } 1 ∧
    Delivers .newSize (.dtsu 2) { inPass .rep [] 0 with cmax := 1 } 2 :=
  ⟨⟨rfl, _, _, rfl, by decide +kernel, by decide +kernel⟩, ⟨rfl, _, _, rfl, by decide +kernel, by decide +kernel⟩, rfl, ⟨rfl, rfl, rfl, rfl, by decide +kernel, rfl⟩,
    ⟨rfl, rfl, rfl, rfl, by decide +kernel, rfl⟩⟩

/-- Z5: `82 3F`. -/
theorem test_witness_LateSizeUpdate :
    ({ inPass .rep [0x82, 0x3F] 2 with suok := false }).nc = false ∧
    lastItem (exec (.dtsu 31) { inPass .rep [0x82, 0x3F] 2 with suok := false }) = some (.err .hSizeLate) := by
  decide +kernel

/-- A unit that goes on, one that yields, one that raises. -/
theorem test_witness_PassUnitsFrame :
    (Instr.lincN).slot ≠ .frame ∧ (nextState (exec .lincN (inPass .rep [] 0))).map State.out = some [] ∧
    (nextState (exec (.idx 2) (inPass .rep [] 0))).map (fun t => (t.out.length, t.nc, t.suok)) = some (1, false, false) ∧
    (nextState (exec (.idx 0) (inPass .rep [] 0))).map (fun t => (t.out, t.nc)) = some ([.err .hIndexZero], true) := by
  decide +kernel

/-- A unit that changes MTS, one that changes DT, one that sets NC. -/
theorem test_witness_TableWriters :
    (nextState (exec (.dtsu 0) (inPass .rep [] 0))).map State.mts = some 0 ∧
    tableOf (exec (.strRaw 0) (inPass (.str (.value .linc [])) [] 0)) = some [⟨[], []⟩] ∧
    (nextState (exec (.idx 0) (inPass .rep [] 0))).map State.nc = some true := by decide +kernel

theorem test_witness_DecodeBlockStartsAPass :
    wantOf (step (atRest [] [.decodeBlock [0x82]])) = some .rep ∧
    wantOf (step { atRest [1, 2, 3, 4, 5, 6, 7, 8, 9] [.decodeBlock [0x82]] with ackDue := true }) = some .rep ∧
    wantOf (step (awaiting [1, 2, 3] [.decodeBlock [0x82]])) = some .rep ∧
    step { atRest [] [.decodeBlock [0x82]] with nc := true } = .refused .afterClose :=
  ⟨by decide +kernel, by decide +kernel, by decide +kernel, rfl⟩

/-- L8 and L1: passes that end with an error and without. -/
theorem test_witness_EveryPassEnds :
    (nextState (runSteps 2 (State.reset.startPass [0xFF]))).map (fun t => (t.pass, t.nc)) = some (none, true) ∧
    (nextState (runSteps 2 (State.reset.startPass [0x82]))).map (fun t => (t.pass, t.nc)) = some (none, false) := by
  decide +kernel

/-- T6: both ways of running `40 00 00` give the same state. -/
theorem test_witness_PassRunsThePseudocode :
    State.reset.nc = false ∧
    nextState (runSteps 4 (State.reset.startPass [0x40, 0x00, 0x00])) = some (decodeBlock [0x40, 0x00, 0x00] State.reset) := by
  decide +kernel

/-- F3, F5 and F6. -/
theorem test_witness_HeaderParse :
    fhParse 16384 [0, 0, 0, 4, 0, 0, 0, 0] = none ∧
    fhParse 16384 [0x00, 0x40, 0x00, 0, 0, 0, 0, 0, 0] = some (⟨16384, 0, 0, 0, false⟩, []) ∧
    fhParse 16384 [0x00, 0x40, 0x01, 0, 0, 0, 0, 0, 0] = some (⟨16385, 0, 0, 0, true⟩, []) := by decide +kernel

/-- F22, F23 and F24. -/
theorem test_witness_BodyParse :
    fbParse ⟨4, 0, 0, 0, false⟩ [0, 0, 0] = none ∧
    fbParse ⟨4, 0, 0, 0, false⟩ [0, 0, 0, 0x64] = some ([0, 0, 0, 0x64], []) ∧
    fbParse ⟨4, 0, 0, 0, false⟩ [0, 0, 0, 0x64, 0, 0] = some ([0, 0, 0, 0x64], [0, 0]) := by decide +kernel

theorem test_witness_FrameHeaderIsAcceptedOrFatal :
    State.reset.maxf.toNat < (16385 : BitVec 24).toNat ∧ (16384 : BitVec 24).toNat ≤ State.reset.maxf.toNat ∧
    State.reset.phase = .fh ∧ State.reset.ackDue = false ∧ State.reset.pass = none ∧
    (atRest [1, 2, 3, 4, 5, 6, 7, 8] []).ib.length < 9 ∧
    (nextState (step (atRest [0x00, 0x40, 0x01, 0, 0, 0, 0, 0, 0, 7] []))).map (fun t => (t.ib, t.phase, t.nc)) =
      some ([7], .fh, true) ∧
    (nextState (step (atRest [0x00, 0x40, 0x00, 0, 0, 0, 0, 0, 0, 7] []))).map (fun t => (t.ib, t.phase, t.nc)) =
      some ([7], .fb, false) := by decide +kernel

/-- F24 in phase FB: the bytes beyond the payload stay; F22: three bytes of four are left where they are. -/
theorem test_witness_CompletedFrameIsDelivered :
    (nextState (step { atRest [0, 0, 0, 0x64, 7] [] with phase := .fb, ph := some ⟨4, 8, 0, 0, false⟩ })).map
      (fun t => (t.ib, t.phase, t.fq)) = some ([7], .fh, [(⟨4, 8, 0, 0, false⟩, [0, 0, 0, 0x64])]) ∧
    (nextState (step { atRest [0, 0, 0] [] with phase := .fb, ph := some ⟨4, 8, 0, 0, false⟩ })).map
      (fun t => (t.ib, t.phase, t.fq.length)) = some ([0, 0, 0], .fb, 0) :=
  ⟨by decide +kernel, by decide +kernel⟩

/-- The host's reaction due, 8 bytes in phase FH, 3 of 4 bytes in phase FB. -/
theorem test_witness_SequencerSuspends :
    nextState (step { atRest [1] [] with ackDue := true }) = some { atRest [1] [] with ackDue := true } ∧
    nextState (step (atRest [1, 2, 3, 4, 5, 6, 7, 8] [])) = some (atRest [1, 2, 3, 4, 5, 6, 7, 8] []) ∧
    (nextState (step { atRest [1, 2, 3] [] with phase := .fb, ph := some ⟨4, 8, 0, 0, false⟩ })).map State.ib =
      some [1, 2, 3] := by decide +kernel

/-- F40, first step. -/
theorem test_witness_StepIsTheSequencerStep :
    (atRest [0, 0, 0, 4, 0, 0, 0, 0, 0] []).Inv ∧ stepEnabled (atRest [0, 0, 0, 4, 0, 0, 0, 0, 0] []) = true := by
  refine ⟨?_, by decide +kernel⟩
  constructor <;> simp [atRest, State.reset, State.resetWith, outShape, Memory.wf, Params.default]

/-- F32 fed to a fresh block: three steps. -/
theorem test_witness_EncodedFrameIsDelivered :
    (4 : BitVec 24).toNat ≤ State.reset.maxf.toNat ∧
    nextState (runSteps 3 (atRest [] [.feed (frameEncode 4 8 0 0 [0, 0, 0, 0x64])])) =
      some { State.reset with fq := [(⟨4, 8, 0, 0, false⟩, [0, 0, 0, 0x64])], ackDue := true } := by decide +kernel

/-- F40 and F41: one chunk and two. -/
theorem test_witness_ChunkBoundariesDoNotMatter :
    stepEnabled State.reset = false ∧
    feedAndRun State.reset [0, 0, 0, 4, 0, 0, 0, 0, 0] = feedAndRun (feedAndRun State.reset [0, 0, 0]) [4, 0, 0, 0, 0, 0] ∧
    (feedAndRun State.reset [0, 0, 0, 4, 0, 0, 0, 0, 0]).fq = [(⟨0, 4, 0, 0, false⟩, [])] := by decide +kernel

/-- F13: the rest of a payload is fed while the body is awaited; the register writes there. -/
theorem test_witness_HostWrites_awaitingBody :
    (nextState (step (awaitingLong [0x82, 0x86] [.feed [0x84, 0x41]]))).map State.ib = some [0x82, 0x86, 0x84, 0x41] ∧
    (nextState (step (awaiting [1, 2, 3] [.setMaxf 9]))).map State.maxf = some 9 ∧
    (nextState (step (awaiting [1, 2, 3] [.setCmax 9]))).map State.cmax = some 9 ∧
    (nextState (step (awaiting [1, 2, 3] [.setNc]))).map State.nc = some true := by decide +kernel

/-- The five operations; a chunk that exactly fits. -/
theorem test_witness_HostWrites :
    (nextState (step { atRest [1] [.feed [2, 3]] with cfg := { Params.default with ibCap := some 3 } })).map State.ib =
      some [1, 2, 3] ∧
    (nextState (step (atRest [1, 2, 3, 4, 5, 6, 7, 8] [.setMaxf 9]))).map State.maxf = some 9 ∧
    (nextState (step (atRest [] [.setCmax 9]))).map State.cmax = some 9 ∧
    (nextState (step (atRest [] [.setNc]))).map State.nc = some true ∧
    (nextState (step { atRest [1, 2, 3, 4, 5, 6, 7, 8, 9] [.ack] with ackDue := true })).map State.ackDue = some false := by
  decide +kernel

/-- One byte too many for the room, in phase FH and in phase FB with the payload one byte short. -/
theorem test_witness_FullBufferStallsFeed :
    (nextState (step { atRest [1] [.feed [2, 3]] with cfg := { Params.default with ibCap := some 2 } })).map
      (fun t => (t.ib, t.host)) = some ([1], [.feed [2, 3]]) ∧
    (nextState (step { awaiting [1, 2, 3] [.feed [4]] with cfg := { Params.default with ibCap := some 3 } })).map
      (fun t => (t.ib, t.host)) = some ([1, 2, 3], [.feed [4]]) :=
  ⟨by decide +kernel, by decide +kernel⟩

/-- With 20 bytes of payload awaited: F1's nine bytes are a header, and F23's four a body. -/
theorem test_witness_DirectParseCalls_awaitingBody :
    (nextState (step (awaitingLong [0, 0, 0, 4, 0, 0, 0, 0, 0, 7] [.fhParse]))).map (fun t => (t.ib, t.ret)) =
      some ([7], .header (some ⟨0, 4, 0, 0, false⟩)) ∧
    (nextState (step (awaitingLong [1, 2, 3, 4] [.fbParse ⟨4, 8, 0, 0, false⟩]))).map (fun t => (t.ib, t.ret)) =
      some ([], .body (some [1, 2, 3, 4])) :=
  ⟨by decide +kernel, by decide +kernel⟩

/-- F3, then F1 with the sequencer held by a delivery; F22, F23 and a failing header. -/
theorem test_witness_DirectParseCalls :
    (nextState (step (atRest [0, 0, 0, 4, 0, 0, 0, 0] [.fhParse]))).map State.ret = some (.header none) ∧
    (nextState (step { atRest [0, 0, 0, 4, 0, 0, 0, 0, 0] [.fhParse] with ackDue := true })).map State.ret =
      some (.header (some ⟨0, 4, 0, 0, false⟩)) ∧
    (nextState (step (atRest [1, 2, 3] [.fbParse ⟨4, 8, 0, 0, false⟩]))).map State.ret = some (.body none) ∧
    (nextState (step (atRest [1, 2, 3, 4] [.fbParse ⟨4, 8, 0, 0, false⟩]))).map State.ret = some (.body (some [1, 2, 3, 4])) ∧
    step (atRest [1, 2, 3, 4] [.fbParse ⟨4, 8, 0, 0, true⟩]) = .refused .failingHeader :=
  ⟨by decide +kernel, by decide +kernel, by decide +kernel, by decide +kernel, rfl⟩

end Sys2Proof.Tests
end

section
/-! PROOF. The stalled `FEED` (00_scope R12, 46 R181). -/

namespace Sys2Proof.Machine

/-- A pending operation that is stalled is not taken. -/
theorem hostTurn_stalled {s : State} {op : HostOp} {ops : List HostOp} (hs : s.host = op :: ops)
    (hst : stalled op s = true) : hostTurn s = .next s := by simp [hostTurn, hs, hst]

/-- With `NC = 0`, a `FEED` stalls exactly when the chunk would exceed the finite `IB_CAP`. -/
theorem stalled_feed_iff {s : State} {chunk : Bytes} {cap : Nat} (hn : s.nc = false)
    (hc : s.cfg.ibCap = some cap) :
    stalled (.feed chunk) s = true ↔ cap < s.ib.length + chunk.length := by simp [stalled, hc, hn]

/-- Settles O54: at the host's turn the pending `FEED` is what the step looks at, and it is stalled. -/
theorem fullBufferStallsFeed : Obligations.FullBufferStallsFeed := by
  intro s chunk ops cap hn ht hs hc hlt
  calc step s = hostTurn s := step_hostsTurn hn ht
    _ = .next s := hostTurn_stalled hs ((stalled_feed_iff hn hc).2 hlt)

end Sys2Proof.Machine
end

section
/-! PROOF. Frames: what a unit of a pass, a step in a pass and a turn of the host leave unchanged (10_state R20, R24, R30,
R35, R39, 40 R106, 42 R148). -/

namespace Sys2Proof.Machine

/-! ## Units of a pass -/

/-- `s` with the registers of the HPACK unit and NC as in `t`. -/
def State.withHpackOf (s t : State) : State :=
  { s with pos := t.pos, suok := t.suok, out := t.out, dt := t.dt, mts := t.mts, nc := t.nc, pass := t.pass }

/-- A unit of a pass writes only the registers of the HPACK unit and NC. -/
theorem PassStep.frame {s t : State} (h : PassStep s t) : t = s.withHpackOf t := by
  cases h with
  | goesOn n w hn ht | yields n h hn ht | inserts n h hn ht | resizes n hn ht | fails n k hn ht => subst ht; rfl

/-- A unit of a pass moves the cursor forward, inside the fragment. -/
theorem PassStep.cursor {s t : State} (h : PassStep s t) (hl : s.pos ≤ s.frag.length) :
    s.pos ≤ t.pos ∧ t.pos ≤ t.frag.length := by
  have moved : ∀ n, n = 0 ∨ s.pos + n ≤ s.frag.length → s.pos ≤ s.pos + n ∧ s.pos + n ≤ s.frag.length := by omega
  cases h with
  | goesOn n w hn ht | yields n h hn ht | inserts n h hn ht | fails n k hn ht => subst ht; exact moved n hn
  | resizes n hn ht => subst ht; exact ⟨le_rfl, hl⟩

/-- A unit that sets NC leaves the dynamic table and its bound as they were (60 R218). -/
theorem PassStep.tables_of_closes {s t : State} (h : PassStep s t) (hs : s.nc = false) (ht : t.nc = true) :
    t.dt = s.dt ∧ t.mts = s.mts := by
  have open_ne : s.nc ≠ true := by simp [hs]
  cases h with
  | fails n k hn he => subst he; exact ⟨rfl, rfl⟩
  | goesOn n w hn he | yields n h hn he | inserts n h hn he | resizes n hn he => subst he; exact absurd ht open_ne

/-! ## Steps in a pass -/

/-- With `NC = 0`, a step in a pass ends the pass, raises `H_TRUNC`, or reads a byte and runs its unit. -/
theorem step_pass_cases {s t : State} (hn : s.nc = false) (hp : s.pass ≠ none) (h : step s = .next t) :
    t = { s with pass := none } ∨ t = failed .hTrunc s ∨
      s.pos < s.frag.length ∧ PassStep { s with pos := s.pos + 1 } t := by
  cases step_cases h with
  | passEnds _ _ _ ht => exact .inl ht
  | truncated _ _ _ _ _ ht => exact .inr (.inl ht)
  | unit _ w b _ hb _ hs => exact .inr (.inr ⟨(List.getElem?_eq_some_iff.mp hb).1, hs⟩)
  | headerFails _ hp' | header _ hp' | delivers _ hp' => exact absurd hp' hp
  | host hp' =>
    rcases hp' with hn' | hp'
    · simp [hn] at hn'
    · exact absurd hp' hp

/-- A step in a pass writes only the registers of the HPACK unit and NC. -/
theorem step_pass_frame {s t : State} (hn : s.nc = false) (hp : s.pass ≠ none) (h : step s = .next t) : t = s.withHpackOf t := by
  rcases step_pass_cases hn hp h with ht | ht | ⟨-, hs⟩
  · subst ht; rfl
  · subst ht; rfl
  · exact hs.frame

/-! ## Turns of the host -/

/-- A turn of the host with `NC = 0` that takes no operation changes nothing. -/
theorem HostStep.eq_of_host_eq {s t : State} (h : HostStep s t) (hn : s.nc = false) (hh : t.host = s.host) : t = s := by
  have taken : ∀ op ops, s.host = op :: ops → t.host ≠ ops := fun op ops hs ht =>
    List.cons_ne_self op ops (by rw [← hs, ← hh, ht])
  cases h with
  | rests ht => exact ht
  | ignored hn' => simp [hn] at hn'
  | resets ops hs ht | feeds _ _ ops hs _ ht | setsMaxf _ _ ops hs ht | setsCmax _ _ ops hs ht | closes ops hs ht
  | starts _ _ _ ops hs ht | acks _ ops hs ht => exact absurd (by rw [ht]) (taken _ ops hs)
  | parses _ n r hs ht =>
    have tail : t.host = s.host.tail := by rw [ht]
    cases hl : s.host with
    | nil => simp [hl] at hs
    | cons op ops => exact absurd (by rw [tail, hl]; rfl) (taken op ops hl)

/-- A turn of the host that does not take `RESET` writes MAXF and CMAX by `SET_MAXF` and `SET_CMAX` only, and never the
parameters. -/
theorem HostStep.configuration {s t : State} (h : HostStep s t) (hr : s.host.head? ≠ some .reset) :
    (t.maxf = s.maxf ∨ ∃ v, s.host.head? = some (.setMaxf v) ∧ t.maxf = v) ∧
    (t.cmax = s.cmax ∨ ∃ v, s.host.head? = some (.setCmax v) ∧ t.cmax = v) ∧ t.cfg = s.cfg := by
  cases h with
  | resets ops hs => exact absurd (by rw [hs]; rfl) hr
  | setsMaxf _ v ops hs ht => subst ht; exact ⟨.inr ⟨v, by rw [hs]; rfl, rfl⟩, .inl rfl, rfl⟩
  | setsCmax _ v ops hs ht => subst ht; exact ⟨.inl rfl, .inr ⟨v, by rw [hs]; rfl, rfl⟩, rfl⟩
  | rests ht | ignored _ ht | feeds _ _ _ _ _ ht | closes _ _ ht | starts _ _ _ _ _ ht | parses _ _ _ _ ht
  | acks _ _ _ ht => subst ht; exact ⟨.inl rfl, .inl rfl, rfl⟩

/-! ## The statements -/

/-- Settles O15: only a turn of the host writes the configuration. -/
theorem configurationWriters : Obligations.ConfigurationWriters := by
  intro s t h hr
  cases step_cases h with
  | host _ hs => exact hs.configuration hr
  | unit _ _ _ _ _ _ hs => rw [hs.frame]; exact ⟨.inl rfl, .inl rfl, rfl⟩
  | passEnds _ _ _ ht | truncated _ _ _ _ _ ht | headerFails _ _ _ _ _ ht | header _ _ _ _ _ _ _ ht
  | delivers _ _ _ _ _ _ _ _ ht => subst ht; exact ⟨.inl rfl, .inl rfl, rfl⟩

/-- Settles O16: inside a pass by the frame of its steps; outside, the sequencer's three steps write its own registers,
and a turn of the host that takes nothing changes nothing. -/
theorem unitsDoNotInterfere : Obligations.UnitsDoNotInterfere := by
  intro s t hn h
  refine ⟨fun hp => ?_, fun hp hh => ?_⟩
  · rw [step_pass_frame hn hp h]
    exact ⟨rfl, rfl, rfl, rfl, rfl, rfl, rfl, rfl, rfl, rfl, rfl⟩
  · cases step_cases h with
    | passEnds _ hp' | truncated _ _ hp' | unit _ _ _ hp' => simp [hp] at hp'
    | headerFails _ _ _ _ _ ht | header _ _ _ _ _ _ _ ht | delivers _ _ _ _ _ _ _ _ ht =>
      subst ht; exact ⟨rfl, rfl, rfl, rfl, rfl, rfl, rfl, hp, rfl, rfl, rfl⟩
    | host _ hs =>
      rw [hs.eq_of_host_eq hn hh]
      exact ⟨rfl, rfl, rfl, rfl, rfl, rfl, rfl, hp, rfl, rfl, rfl⟩

/-- Settles O17: the byte read is inside the fragment, and its unit moves the cursor forward from there. -/
theorem cursorOnlyAdvances : Obligations.CursorOnlyAdvances := by
  intro s t hn hp hl h
  rcases step_pass_cases hn hp h with ht | ht | ⟨hlt, hs⟩
  · subst ht; exact ⟨le_rfl, hl⟩
  · subst ht; exact ⟨le_rfl, hl⟩
  · obtain ⟨hge, hle⟩ := hs.cursor hlt
    exact ⟨Nat.le_of_succ_le hge, hle⟩

end Sys2Proof.Machine
end

section
/-! PROOF. The writers of the dynamic table and of its bound (10_state R27, R29, 42 R142 to R146, 60 R218). A unit either
completes an integer, and then what the integer was read for says what it may write, or it writes neither. -/

namespace Sys2Proof.Machine

/-! ## What a completed integer may write -/

/-- The end of a literal writes the table for `LINC` only, and never the bound. -/
theorem literalDone_tables {k : LitKind} {h : Header} {s t : State} (he : literalDone k h s = .next t) :
    t.mts = s.mts ∧ (t.dt = s.dt ∨ k = .linc) := by
  cases k with
  | linc => cases he; exact ⟨rfl, .inr rfl⟩
  | lnoidx | lnever => cases he; exact ⟨rfl, .inl rfl⟩

/-- A decoded string writes the table only as the value of a `LINC` literal, and never the bound. -/
theorem stringDone_tables {u : StrUse} {x : Bytes} {s t : State} (he : stringDone u x s = .next t) :
    t.mts = s.mts ∧ (t.dt = s.dt ∨ ∃ name, u = .value .linc name) := by
  cases u with
  | name k => cases he; exact ⟨rfl, .inl rfl⟩
  | value k name =>
    obtain ⟨hm, hd⟩ := literalDone_tables he
    exact ⟨hm, hd.imp_right fun hk => ⟨name, by rw [hk]⟩⟩

/-- The same from the string's length on. -/
theorem stringData_tables {f : Bool} {u : StrUse} {n : Nat} {s t : State} (he : stringData f u n s = .next t) :
    t.mts = s.mts ∧ (t.dt = s.dt ∨ ∃ name, u = .value .linc name) := by
  unfold stringData at he
  rcases Nat.lt_or_ge (s.frag.length - s.pos) n with hl | hl
  · rw [takeBytes_of_gt hl] at he
    cases he; exact ⟨rfl, .inl rfl⟩
  · rw [takeBytes_of_le hl] at he
    dsimp only at he
    split at he
    · split at he
      · exact stringDone_tables (s := s.setPos (s.pos + n)) he
      · cases he; exact ⟨rfl, .inl rfl⟩
    · split at he
      · exact stringDone_tables (s := s.setPos (s.pos + n)) he
      · cases he; exact ⟨rfl, .inl rfl⟩

/-- An index writes neither the table nor the bound. -/
theorem indexDone_tables {i : Nat} {s t : State} (he : indexDone i s = .next t) : t.mts = s.mts ∧ t.dt = s.dt := by
  unfold indexDone at he
  split at he
  · cases he; exact ⟨rfl, rfl⟩
  · split at he
    · cases he; exact ⟨rfl, rfl⟩
    · split at he <;> (cases he; exact ⟨rfl, rfl⟩)

/-- A name index writes neither the table nor the bound. -/
theorem nameIndexDone_tables {k : LitKind} {i : Nat} {s t : State} (he : nameIndexDone k i s = .next t) :
    t.mts = s.mts ∧ t.dt = s.dt := by
  unfold nameIndexDone at he
  split at he
  · cases he; exact ⟨rfl, rfl⟩
  · split at he <;> (cases he; exact ⟨rfl, rfl⟩)

/-- A completed integer writes the bound only as a new size, and the table only as that or as the length of the value
string of a `LINC` literal. -/
theorem intDone_tables {u : IntUse} {i : Nat} {s t : State} (he : intDone u i s = .next t) :
    (t.mts = s.mts ∨ u = .newSize) ∧
    (t.dt = s.dt ∨ u = .newSize ∨ ∃ f name, u = .strLen f (.value .linc name)) := by
  cases u with
  | index => exact (indexDone_tables he).imp .inl .inl
  | nameIndex k => exact (nameIndexDone_tables he).imp .inl .inl
  | newSize => exact ⟨.inr rfl, .inr (.inl rfl)⟩
  | strLen f w =>
    obtain ⟨hm, hd⟩ := stringData_tables he
    exact ⟨.inl hm, hd.imp_right fun ⟨name, hw⟩ => .inr ⟨f, name, by rw [hw]⟩⟩

/-! ## Which units complete an integer -/

/-- A first byte whose field is all ones writes neither the table nor the bound. -/
theorem intPrefix_short_or_tables {n p : Nat} {u : IntUse} {s t : State} (he : intPrefix n p u s = .next t) :
    p < 2 ^ n - 1 ∨ t.mts = s.mts ∧ t.dt = s.dt := by
  unfold intPrefix at he
  split at he
  · next hp => exact .inl hp
  · cases he; exact .inr ⟨rfl, rfl⟩

/-- A frame header writes neither the table nor the bound (40 R103, R106). -/
theorem exec_frame_tables {x : Instr} {s t : State} (hx : x.slot = .frame) (h : exec x s = .next t) :
    t.mts = s.mts ∧ t.dt = s.dt := by
  cases x with
  | frameHdr =>
    obtain ⟨-, -, -, -, ⟨-, ht⟩ | ⟨-, ht⟩⟩ := exec_frameHdr_cases h
    · subst ht; exact ⟨rfl, rfl⟩
    · subst ht; exact ⟨rfl, rfl⟩
  | idx | lincN | lincI | lnoidxN | lnoidxI | lneverN | lneverI | dtsu | strRaw | strHuf | intCont | intLast => cases hx

/-- A unit that answers a next state completes an integer, or writes neither the table nor the bound. -/
theorem exec_delivers_or_tables {x : Instr} {s t : State} (h : exec x s = .next t) :
    (∃ u v, Delivers u x s v) ∨ t.mts = s.mts ∧ t.dt = s.dt := by
  cases x with
  | idx | lincI | lnoidxI | lneverI =>
    obtain ⟨hn, hp, he⟩ := atRep_next h
    exact (intPrefix_short_or_tables he).imp_left fun hl => ⟨_, _, hn, hp, rfl, hl, rfl⟩
  | lincN | lnoidxN | lneverN =>
    obtain ⟨hn, hp, -⟩ := atRep_next h
    exact .inl ⟨_, _, hn, hp, rfl, rfl⟩
  | dtsu n =>
    obtain ⟨hn, hp, he⟩ := atRep_next h
    split at he
    · next hs => exact (intPrefix_short_or_tables he).imp_left fun hl => ⟨_, _, hn, hp, hs, rfl, hl, rfl⟩
    · cases he; exact .inr ⟨rfl, rfl⟩
  | strRaw | strHuf =>
    obtain ⟨hn, w, hp, he⟩ := atStr_next h
    exact (intPrefix_short_or_tables he).imp_left fun hl => ⟨_, _, hn, w, hp, rfl, hl, rfl⟩
  | intCont g =>
    obtain ⟨-, u, acc, m, -, he⟩ := atCont_next h
    cases he; exact .inr ⟨rfl, rfl⟩
  | intLast g =>
    obtain ⟨hn, u, acc, m, hp, he⟩ := atCont_next h
    unfold intEnd at he
    split at he
    · cases he; exact .inr ⟨rfl, rfl⟩
    · next hb => exact .inl ⟨u, _, hn, acc, m, hp, rfl, Nat.not_lt.mp hb⟩
  | frameHdr => exact .inr (exec_frame_tables rfl h)

/-- The units that complete a new size. -/
theorem Delivers.newSize_unit {x : Instr} {s : State} {v : Nat} (h : Delivers .newSize x s v) :
    (∃ n, x = .dtsu n) ∨ ∃ g acc m, x = .intLast g ∧ s.pass = some (.cont .newSize acc m) := by
  obtain ⟨-, h⟩ := h
  cases x with
  | dtsu n => exact .inl ⟨n, rfl⟩
  | intLast g =>
    obtain ⟨acc, m, hp, -⟩ := h
    exact .inr ⟨g, acc, m, rfl, hp⟩
  | idx | lincN | lincI | lnoidxN | lnoidxI | lneverN | lneverI | strRaw | strHuf | intCont | frameHdr => simp at h

/-- Where a unit that completes the length of a string stands. -/
theorem Delivers.strLen_unit {f : Bool} {w : StrUse} {x : Instr} {s : State} {v : Nat}
    (h : Delivers (.strLen f w) x s v) :
    s.pass = some (.str w) ∨ ∃ g acc m, x = .intLast g ∧ s.pass = some (.cont (.strLen f w) acc m) := by
  obtain ⟨-, h⟩ := h
  cases x with
  | strRaw | strHuf =>
    obtain ⟨w', hp, hu, -⟩ := h
    cases hu; exact .inl hp
  | intLast g =>
    obtain ⟨acc, m, hp, -⟩ := h
    exact .inr ⟨g, acc, m, rfl, hp⟩
  | idx | lincN | lincI | lnoidxN | lnoidxI | lneverN | lneverI | dtsu | intCont | frameHdr => simp at h

/-- A unit that sets NC leaves the dynamic table and its bound as they were (60 R214, R218). -/
theorem exec_tables_of_closes {x : Instr} {s t : State} (h : exec x s = .next t) (hn : s.nc = false)
    (ht : t.nc = true) : t.dt = s.dt ∧ t.mts = s.mts := by
  by_cases hx : x.slot = .frame
  · exact (exec_frame_tables hx h).symm
  · exact (exec_pass_cases hx h).2.2.tables_of_closes hn ht

/-! ## The statement -/

/-- Settles O40: a unit that writes the table or its bound completes an integer, which was read for a new size or for the
value string of a `LINC` literal. -/
theorem tableWriters : Obligations.TableWriters := by
  intro x s t h
  refine ⟨fun hm => ?_, fun hd => ?_, exec_tables_of_closes h⟩
  · obtain ⟨u, v, hv⟩ | ⟨hm', -⟩ := exec_delivers_or_tables h
    · rw [(exec_of_delivers hv).2] at h
      cases (intDone_tables h).1.resolve_left hm
      exact hv.newSize_unit
    · exact absurd hm' hm
  · obtain ⟨u, v, hv⟩ | ⟨-, hd'⟩ := exec_delivers_or_tables h
    · rw [(exec_of_delivers hv).2] at h
      obtain rfl | ⟨f, name, rfl⟩ := (intDone_tables h).2.resolve_left hd
      · exact hv.newSize_unit.imp_right .inl
      · rcases hv.strLen_unit with hp | ⟨g, acc, m, hx, hp⟩
        · exact .inr (.inr (.inl ⟨name, hp⟩))
        · exact .inr (.inr (.inr ⟨g, f, name, acc, m, hx, hp⟩))
    · exact absurd hd' hd

end Sys2Proof.Machine
end

section
/-! PROOF. The invariant: it holds at reset, and each thing a step can do keeps it (10_state R23, R26, R28, R32 to R35, 42
R147, 60 R208, R219). -/

namespace Sys2Proof.Machine

/-! ## Reset -/

/-- Settles O7: the defaults of the parameters are the table's values (R6, R7, R40). -/
theorem resetValues : Obligations.ResetValues :=
  ⟨rfl, rfl, rfl, rfl, rfl, rfl, rfl, rfl, rfl, rfl, rfl, rfl, rfl⟩

/-- The state after reset has the invariant, whatever the parameters. -/
theorem State.Inv.resetWith (c : Params) : (State.resetWith c).Inv where
  pending := by simp [State.resetWith]
  pendingSound := by simp [State.resetWith]
  delivered := by simp [State.resetWith]
  memory := memory_wf_reset c
  shape := rfl
  closed := by simp [State.resetWith]
  passOpen _ := rfl
  window := by simp [State.resetWith]

/-- Settles O9: reset is `resetWith` of the spec's parameters. -/
theorem invariantAtReset : Obligations.InvariantAtReset := State.Inv.resetWith Params.default

/-! ## Results of a pass -/

/-- `OUT` with an item appended has its shape when no error was in it. -/
theorem outShape_append {out : List Item} (x : Item) (h : ∀ k, .err k ∉ out) : outShape (out ++ [x]) = true := by
  rw [outShape, List.dropLast_concat, List.all_eq_true]
  intro y hy
  cases y with
  | ok _ => rfl
  | err k => exact absurd hy (h k)

/-- With `NC = 0` no error is in `OUT`. -/
theorem State.Inv.no_error {s : State} (hs : s.Inv) (hn : s.nc = false) (k : Cause) : .err k ∉ s.out := fun hk => by
  simp [hs.closed ⟨k, hk⟩] at hn

/-- The cursor moved inside the fragment. -/
theorem State.Inv.advance {s : State} (hs : s.Inv) {p : Nat} (hp : p ≤ s.frag.length) : ({ s with pos := p }).Inv :=
  { hs with memory := (memory_wf_iff _).mpr ⟨hp, ((memory_wf_iff s).mp hs.memory).2⟩ }

/-- The pass goes on to another read. -/
theorem State.Inv.goesOn {s : State} (hs : s.Inv) (hn : s.nc = false) (hp : s.pass ≠ none) (w : Want) :
    ({ s with pass := some w }).Inv :=
  { hs with passOpen := fun _ => hn, window := fun _ => hs.window hp }

/-- A field representation completes. -/
theorem State.Inv.emits {s : State} (hs : s.Inv) (hn : s.nc = false) (h : Header) :
    ({ s with suok := false, out := s.out ++ [Item.ok h], pass := some .rep }).Inv :=
  { hs with
    shape := outShape_append _ (hs.no_error hn)
    closed := fun ⟨k, hk⟩ => by simp [hs.no_error hn k] at hk
    passOpen := fun _ => hn
    window := fun _ => by simp }

/-- A decode error taken (60 R208). -/
theorem State.Inv.failed {s : State} (hs : s.Inv) (hn : s.nc = false) (k : Cause) : (failed k s).Inv :=
  { hs with
    shape := outShape_append _ (hs.no_error hn)
    closed := fun _ => rfl
    passOpen := fun h => absurd rfl h
    window := fun h => absurd rfl h }

/-- Whatever a unit of a pass does. -/
theorem PassStep.keeps_inv {s t : State} (h : PassStep s t) (hs : s.Inv) (hn : s.nc = false) (hp : s.pass ≠ none) :
    t.Inv := by
  have hpos : s.pos ≤ s.frag.length := ((memory_wf_iff s).mp hs.memory).1
  have moved : ∀ n, n = 0 ∨ s.pos + n ≤ s.frag.length → ({ s with pos := s.pos + n }).Inv := fun n hn =>
    hs.advance (by omega)
  cases h with
  | goesOn n w hl ht => subst ht; exact (moved n hl).goesOn hn hp w
  | yields n h hl ht => subst ht; exact (moved n hl).emits hn h
  | inserts n h hl ht =>
    subst ht
    have hi := (moved n hl).emits hn h
    exact { hi with memory := memory_wf_insert h hi.memory }
  | resizes n hl ht =>
    subst ht
    exact { hs.goesOn hn hp .rep with memory := memory_wf_resize hs.memory hl }
  | fails n k hl ht => subst ht; exact (moved n hl).failed hn k

/-! ## The sequencer and the host -/

/-- NC set outside a pass (40 R103, 46 R184). -/
theorem State.Inv.closes {s : State} (hs : s.Inv) (hp : s.pass = none) : ({ s with nc := true }).Inv :=
  { hs with
    closed := fun _ => rfl
    passOpen := fun h => absurd hp h }

/-- IB loses bytes at its front. -/
theorem State.Inv.dropIb {s : State} (hs : s.Inv) (n : Nat) : ({ s with ib := s.ib.drop n }).Inv :=
  { hs with memory := memory_wf_setIb hs.memory (by simp) }

/-- A header accepted (40 R103). -/
theorem State.Inv.awaits {s : State} (hs : s.Inv) {h : FrameHeader} (hh : h.failure = false) :
    ({ s with ph := some h, phase := .fb }).Inv :=
  { hs with
    pending := by simp
    pendingSound := by rintro _ ⟨⟩; exact hh }

/-- A frame delivered (40 R104). -/
theorem State.Inv.delivers {s : State} (hs : s.Inv) {h : FrameHeader} {p : Bytes} (hh : h.failure = false)
    (hl : p.length = h.length.toNat) :
    ({ s with ph := none, phase := .fh, ackDue := true, fq := s.fq ++ [(h, p)] }).Inv :=
  { hs with
    pending := by simp
    pendingSound := by simp
    delivered := by
      intro f hf
      rcases List.mem_append.mp hf with hf | hf
      · exact hs.delivered f hf
      · obtain rfl := List.mem_singleton.mp hf
        exact ⟨hh, hl⟩ }

/-- A pass started (42 R140). -/
theorem State.Inv.starts {s : State} (hs : s.Inv) (hn : s.nc = false) (frag : Bytes) : (s.startPass frag).Inv :=
  { hs with
    memory := memory_wf_startPass frag hs.memory
    shape := rfl
    closed := by simp [State.startPass]
    passOpen := fun _ => hn
    window := by simp [State.startPass] }

/-- Whatever a turn of the host does. -/
theorem HostStep.keeps_inv {s t : State} (h : HostStep s t) (hs : s.Inv) (hp : s.nc = true ∨ s.pass = none) :
    t.Inv := by
  have idle : s.pass = none := hp.elim (fun hn => by_contra fun hp => by simp [hs.passOpen hp] at hn) id
  cases h with
  | rests ht => subst ht; exact hs
  | resets ops _ ht => subst ht; exact { State.Inv.resetWith s.cfg with }
  | ignored _ ht => subst ht; exact { hs with }
  | feeds _ chunk ops _ hroom ht =>
    subst ht
    obtain ⟨hpos, -, hdt⟩ := (memory_wf_iff s).mp hs.memory
    exact { hs with memory := (memory_wf_iff _).mpr ⟨hpos, by simpa using hroom, hdt⟩ }
  | setsMaxf _ v ops _ ht => subst ht; exact { hs with }
  | setsCmax _ v ops _ ht => subst ht; exact { hs with }
  | closes ops _ ht => subst ht; exact { hs.closes idle with }
  | starts hn _ frag ops _ ht => subst ht; exact { hs.starts hn frag with }
  | parses _ n r _ ht => subst ht; exact { hs.dropIb n with }
  | acks _ ops _ ht => subst ht; exact { hs with }

/-! ## The statement -/

/-- Settles O10, by the cases of a step. -/
theorem stepKeepsInvariant : Obligations.StepKeepsInvariant := by
  intro s t hs h
  cases step_cases h with
  | passEnds _ _ _ ht =>
    subst ht
    exact { hs with passOpen := fun h => absurd rfl h, window := fun h => absurd rfl h }
  | truncated hn _ _ _ _ ht => subst ht; exact hs.failed hn _
  | unit hn w b hp hb _ hu =>
    have hlt : s.pos < s.frag.length := (List.getElem?_eq_some_iff.mp hb).1
    exact hu.keeps_inv (hs.advance hlt) hn (by simp [hp])
  | headerFails _ hp _ _ _ ht => subst ht; exact (hs.dropIb 9).closes hp
  | header _ _ _ _ _ _ hh ht => subst ht; exact (hs.dropIb 9).awaits hh
  | delivers _ _ _ _ hd _ hh hl ht =>
    subst ht
    exact (hs.dropIb hd.length.toNat).delivers hh (by simpa using hl)
  | host hp hh => exact hh.keeps_inv hs hp

end Sys2Proof.Machine
end

section
/-! PROOF. The fields of the nine header bytes as sums (30 R54). -/

namespace Sys2Proof

/-- Bits appended below weigh the upper ones by their number. -/
theorem toNat_append_eq_add {n m : Nat} (x : BitVec n) (y : BitVec m) :
    (x ++ y).toNat = x.toNat * 2 ^ m + y.toNat := by
  rw [BitVec.toNat_append, ← Nat.shiftLeft_add_eq_or_of_lt y.isLt, Nat.shiftLeft_eq]

/-- A byte is its low seven bits and bit 7 with its weight. -/
theorem toNat_eq_low_add_flag (b : Byte) : b.toNat = (b.extractLsb' 0 7).toNat + (b.getLsbD 7).toNat * 2 ^ 7 := by
  calc b.toNat = (BitVec.ofBool (b.getLsbD 7) ++ b.extractLsb' 0 7 : BitVec 8).toNat := by rw [flag_append_self]
    _ = _ := by rw [toNat_append_eq_add, BitVec.toNat_ofBool, Nat.add_comm]

/-- Settles O6: each field is bytes appended, big-endian, and the reserved bit is bit 7 of the first byte of the last. -/
theorem headerFieldsBigEndian : Obligations.HeaderFieldsBigEndian := by
  intro h0 h1 h2 h3 h4 h5 h6 h7 h8 rest
  refine ⟨h0 ++ h1 ++ h2, h5.getLsbD 7, h5.extractLsb' 0 7 ++ h6 ++ h7 ++ h8, rfl, ?_, ?_⟩
  · rw [toNat_append_eq_add, toNat_append_eq_add]
    omega
  · rw [toNat_append_eq_add, toNat_append_eq_add, toNat_append_eq_add, toNat_eq_low_add_flag h5]
    omega

end Sys2Proof
end

section
/-! PROOF. `RUN` with an acknowledging host (40 R105), and its independence of the cutting into chunks (20 R67). A turn
that is enabled takes its bytes from the front of IB, so it commutes with bytes received behind them; then so does the
whole of `RUN`. -/

namespace Sys2Proof.Machine

/-! ## One turn of the sequencer -/

/-- When `STEP` is enabled (40 R105). -/
theorem stepEnabled_iff {s : State} : stepEnabled s = true ↔ s.nc = false ∧
    (s.phase = .fh ∧ 9 ≤ s.ib.length ∨ ∃ h, s.phase = .fb ∧ s.ph = some h ∧ h.length.toNat ≤ s.ib.length) := by
  have nine : Config.frameHeaderLen ≤ s.ib.length ↔ 9 ≤ s.ib.length := Iff.rfl
  cases hf : s.phase with
  | fh => simp [stepEnabled, hf, nine]
  | fb => cases hp : s.ph <;> simp [stepEnabled, hf, hp]

theorem stepEnabled_of_closed {s : State} (hn : s.nc = true) : stepEnabled s = false := by simp [stepEnabled, hn]

theorem sequencerStep_header {s : State} {h : FrameHeader} {rest : Bytes} (hf : s.phase = .fh)
    (hp : fhParse s.maxf s.ib = some (h, rest)) : sequencerStep s = acceptHeader h (s.setIb rest) := by
  simp [sequencerStep, hf, hp]

theorem sequencerStep_body {s : State} {h : FrameHeader} (hf : s.phase = .fb) (hph : s.ph = some h)
    (hl : h.length.toNat ≤ s.ib.length) :
    sequencerStep s = (s.setIb (s.ib.drop h.length.toNat)).deliver h (s.ib.take h.length.toNat) := by
  simp [sequencerStep, hf, hph, fbParse_of_le hl]

@[simp] theorem acceptHeader_ib (h : FrameHeader) (s : State) : (acceptHeader h s).ib = s.ib := by
  cases hh : h.failure <;> simp [acceptHeader, hh, failHeader, State.close]

/-- Everything an enabled `STEP` can do: a header taken from IB, or the awaited payload. -/
theorem sequencerStep_cases {s : State} (he : stepEnabled s = true) :
    (s.phase = .fh ∧ 9 ≤ s.ib.length ∧ ∃ h, fhParse s.maxf s.ib = some (h, s.ib.drop 9) ∧
      sequencerStep s = acceptHeader h (s.setIb (s.ib.drop 9))) ∨
    ∃ h, s.phase = .fb ∧ s.ph = some h ∧ h.length.toNat ≤ s.ib.length ∧
      sequencerStep s = (s.setIb (s.ib.drop h.length.toNat)).deliver h (s.ib.take h.length.toNat) := by
  obtain ⟨-, ⟨hf, h9⟩ | ⟨h, hf, hph, hl⟩⟩ := stepEnabled_iff.mp he
  · rcases fhParse_cases s.maxf s.ib with ⟨hlt, -⟩ | ⟨-, h, hp⟩
    · omega
    · exact .inl ⟨hf, h9, h, hp, sequencerStep_header hf hp⟩
  · exact .inr ⟨h, hf, hph, hl, sequencerStep_body hf hph hl⟩

/-! ## The turns of `RUN` -/

/-- A bound on the turns still to come: two for each nine bytes of IB, one for a body awaited (40 R105). -/
def turnsLeft (s : State) : Nat :=
  2 * (s.ib.length / 9) + match s.phase with
    | .fh => 0
    | .fb => 1

theorem turnsLeft_le (s : State) : turnsLeft s ≤ 2 * (s.ib.length / 9) + 1 := by
  unfold turnsLeft
  cases s.phase <;> simp

theorem turnsLeft_sequencerStep {s : State} (he : stepEnabled s = true) :
    turnsLeft (sequencerStep s).acked < turnsLeft s := by
  rcases sequencerStep_cases he with ⟨hf, h9, h, -, hs⟩ | ⟨h, hf, -, -, hs⟩
  · have hle := turnsLeft_le (sequencerStep s).acked
    have hlen : (sequencerStep s).acked.ib.length = s.ib.length - 9 := by simp [hs]
    have hnow : turnsLeft s = 2 * (s.ib.length / 9) := by simp [turnsLeft, hf]
    omega
  · have hthen : turnsLeft (sequencerStep s).acked = 2 * ((s.ib.length - h.length.toNat) / 9) := by
      simp [turnsLeft, hs]
    have hnow : turnsLeft s = 2 * (s.ib.length / 9) + 1 := by simp [turnsLeft, hf]
    omega

theorem drain_of_disabled {s : State} (he : stepEnabled s = false) (n : Nat) : drain n s = s := by
  cases n <;> simp [drain, he]

theorem drain_succ_of_enabled {s : State} (he : stepEnabled s = true) (n : Nat) :
    drain (n + 1) s = drain n (sequencerStep s).acked := by simp [drain, he]

/-- Turns beyond the bound change nothing. -/
theorem drain_eq_drain {n m : Nat} {s : State} (hn : turnsLeft s ≤ n) (hm : turnsLeft s ≤ m) :
    drain n s = drain m s := by
  induction n generalizing m s with
  | zero =>
    have he : stepEnabled s = false := Bool.eq_false_iff.mpr fun he => by
      have := turnsLeft_sequencerStep he
      omega
    rw [drain_of_disabled he, drain_of_disabled he]
  | succ n ih =>
    cases he : stepEnabled s with
    | false => rw [drain_of_disabled he, drain_of_disabled he]
    | true =>
      have hlt := turnsLeft_sequencerStep he
      obtain ⟨m, rfl⟩ := Nat.exists_eq_add_one_of_ne_zero (show m ≠ 0 by omega)
      rw [drain_succ_of_enabled he, drain_succ_of_enabled he]
      exact ih (by omega) (by omega)

theorem runSequencer_of_disabled {s : State} (he : stepEnabled s = false) : runSequencer s = s :=
  drain_of_disabled he _

theorem runSequencer_of_enabled {s : State} (he : stepEnabled s = true) :
    runSequencer s = runSequencer (sequencerStep s).acked := by
  have hlt := turnsLeft_sequencerStep he
  have hle := turnsLeft_le s
  calc runSequencer s = drain (2 * (s.ib.length / 9)) (sequencerStep s).acked := drain_succ_of_enabled he _
    _ = runSequencer (sequencerStep s).acked := drain_eq_drain (by omega) (turnsLeft_le _)

/-- The induction over the turns of `RUN`. -/
theorem runSequencer_induction {P : State → Prop} (stops : ∀ s, stepEnabled s = false → P s)
    (turns : ∀ s, stepEnabled s = true → P (sequencerStep s).acked → P s) (s : State) : P s :=
  match he : stepEnabled s with
  | false => stops s he
  | true => turns s he (runSequencer_induction stops turns (sequencerStep s).acked)
termination_by turnsLeft s
decreasing_by exact turnsLeft_sequencerStep he

/-- `RUN` goes on until no `STEP` is enabled. -/
theorem stepEnabled_runSequencer (s : State) : stepEnabled (runSequencer s) = false := by
  induction s using runSequencer_induction with
  | stops s he => rw [runSequencer_of_disabled he, he]
  | turns s he ih => rw [runSequencer_of_enabled he, ih]

/-! ## Bytes received behind those in IB -/

/-- Appends a chunk to IB: what `FEED` does with `NC = 0` (46 R181). -/
def State.receive (s : State) (x : Bytes) : State := s.setIb (s.ib ++ x)

section
variable (s : State) (x y : Bytes)

@[simp] theorem State.receive_ib : (s.receive x).ib = s.ib ++ x := rfl
@[simp] theorem State.receive_phase : (s.receive x).phase = s.phase := rfl
@[simp] theorem State.receive_ph : (s.receive x).ph = s.ph := rfl
@[simp] theorem State.receive_maxf : (s.receive x).maxf = s.maxf := rfl
@[simp] theorem State.receive_nc : (s.receive x).nc = s.nc := rfl

theorem State.receive_nil : s.receive [] = s := by simp [State.receive, State.setIb]

theorem State.receive_append : s.receive (x ++ y) = (s.receive x).receive y := by
  simp [State.receive, State.setIb]

theorem acceptHeader_receive (h : FrameHeader) : acceptHeader h (s.receive x) = (acceptHeader h s).receive x := by
  cases hh : h.failure <;> simp [acceptHeader, hh] <;> rfl

end

theorem decode_frame_append {ib rest : Bytes} {i : Instr} (h : decode .frame ib = .ok (i, rest)) (x : Bytes) :
    decode .frame (ib ++ x) = .ok (i, rest ++ x) := by
  match ib with
  | _ :: _ :: _ :: _ :: _ :: _ :: _ :: _ :: _ :: _ => cases h; rfl
  | [] | [_] | [_, _] | [_, _, _] | [_, _, _, _] | [_, _, _, _, _] | [_, _, _, _, _, _] | [_, _, _, _, _, _, _]
  | [_, _, _, _, _, _, _, _] => cases h

theorem fhParse_append {maxf : Word} {ib rest : Bytes} {h : FrameHeader} (hp : fhParse maxf ib = some (h, rest))
    (x : Bytes) : fhParse maxf (ib ++ x) = some (h, rest ++ x) := by
  rcases decode_frame_cases ib with ⟨-, len, type, flags, r, sid, hd⟩ | ⟨-, hd⟩
  · rw [fhParse_of_decode hd] at hp
    cases hp
    exact fhParse_of_decode (decode_frame_append hd x)
  · simp [fhParse, hd] at hp

theorem stepEnabled_receive {s : State} (he : stepEnabled s = true) (x : Bytes) : stepEnabled (s.receive x) = true := by
  have longer {n : Nat} (h : n ≤ s.ib.length) : n ≤ (s.receive x).ib.length := by simp; omega
  obtain ⟨hn, hu⟩ := stepEnabled_iff.mp he
  exact stepEnabled_iff.mpr ⟨hn, hu.imp (.imp_right longer) fun ⟨h, hf, hph, hl⟩ => ⟨h, hf, hph, longer hl⟩⟩

/-- An enabled `STEP` takes its unit from the front of IB and leaves what is behind it. -/
theorem sequencerStep_receive {s : State} (he : stepEnabled s = true) (x : Bytes) :
    sequencerStep (s.receive x) = (sequencerStep s).receive x := by
  rcases sequencerStep_cases he with ⟨hf, -, h, hp, hs⟩ | ⟨h, hf, hph, hl, hs⟩
  · rw [hs, ← acceptHeader_receive]
    exact sequencerStep_header hf (fhParse_append hp x)
  · have hl' : h.length.toNat ≤ (s.receive x).ib.length := by simp; omega
    rw [hs, sequencerStep_body (s := s.receive x) hf hph hl', State.receive_ib, List.drop_append_of_le_length hl,
      List.take_append_of_le_length hl]
    rfl

/-- `RUN` before a chunk is received changes nothing after the `RUN` that follows it. -/
theorem runSequencer_receive (s : State) (x : Bytes) :
    runSequencer (s.receive x) = runSequencer ((runSequencer s).receive x) := by
  induction s using runSequencer_induction with
  | stops s he => rw [runSequencer_of_disabled he]
  | turns s he ih =>
    calc runSequencer (s.receive x) = runSequencer (sequencerStep (s.receive x)).acked :=
          runSequencer_of_enabled (stepEnabled_receive he x)
      _ = runSequencer ((sequencerStep s).acked.receive x) := by rw [sequencerStep_receive he]; rfl
      _ = runSequencer ((runSequencer s).receive x) := by rw [ih, runSequencer_of_enabled he]

/-! ## `FEED; RUN` -/

theorem feedAndRun_open {s : State} (hn : s.nc = false) (x : Bytes) :
    feedAndRun s x = runSequencer (s.receive x) := by simp [feedAndRun, hn, State.receive]

theorem feedAndRun_closed {s : State} (hn : s.nc = true) (x : Bytes) : feedAndRun s x = s := by
  simp [feedAndRun, hn, runSequencer_of_disabled (stepEnabled_of_closed hn)]

theorem feedAndRun_nil {s : State} (he : stepEnabled s = false) : feedAndRun s [] = s := by
  simp [feedAndRun, State.setIb, runSequencer_of_disabled he]

theorem stepEnabled_feedAndRun (s : State) (x : Bytes) : stepEnabled (feedAndRun s x) = false :=
  stepEnabled_runSequencer _

theorem foldl_feedAndRun_closed {s : State} (hn : s.nc = true) (chunks : List Bytes) :
    chunks.foldl feedAndRun s = s := by
  induction chunks with
  | nil => rfl
  | cons c cs ih => rw [List.foldl_cons, feedAndRun_closed hn, ih]

/-- Two chunks at once are the second one received after `FEED; RUN` of the first, and then `RUN`. -/
theorem feedAndRun_append {s : State} (hn : s.nc = false) (x y : Bytes) :
    feedAndRun s (x ++ y) = runSequencer ((feedAndRun s x).receive y) := by
  rw [feedAndRun_open hn, feedAndRun_open hn, State.receive_append, runSequencer_receive]

/-- Settles O52, by induction on the chunks: while NC stays 0 two chunks at once are one after the other; when it gets set,
what the whole has more is the chunks that the cut sequence discards. -/
theorem chunkBoundariesDoNotMatter : Obligations.ChunkBoundariesDoNotMatter := by
  intro s chunks he
  induction chunks generalizing s with
  | nil => exact ⟨fun _ => (feedAndRun_nil he).symm, [], by simp [feedAndRun_nil he]⟩
  | cons c cs ih =>
    cases hn : s.nc with
    | true =>
      rw [foldl_feedAndRun_closed hn, feedAndRun_closed hn]
      exact ⟨fun _ => rfl, [], s.receive_nil.symm⟩
    | false =>
      rw [List.flatten_cons, feedAndRun_append hn, List.foldl_cons]
      cases hc : (feedAndRun s c).nc with
      | false =>
        rw [← feedAndRun_open hc]
        exact ih (feedAndRun s c) (stepEnabled_feedAndRun s c)
      | true =>
        have hoff : stepEnabled ((feedAndRun s c).receive cs.flatten) = false := stepEnabled_of_closed hc
        rw [foldl_feedAndRun_closed hc, runSequencer_of_disabled hoff]
        exact ⟨fun ho => absurd (hc.symm.trans ho) (by decide), cs.flatten, rfl⟩

end Sys2Proof.Machine
end

section
/-! PROOF. The encoding: decode and encode are inverse (30_encoding R71 to R82), the maps of an octet by value, and the
words written out from the spec. -/

namespace Sys2Proof

/-! ## Round trips -/

/-- Settles O1: each row's round trip. -/
theorem decodeOfEncode : Obligations.DecodeOfEncode := by
  intro i rest hwf
  have row : Laws.RoundTrip.Statement i := by
    cases i with
    | idx i => exact Laws.RoundTrip.idx i
    | lincN => exact Laws.RoundTrip.lincN
    | lincI i => exact Laws.RoundTrip.lincI i
    | lnoidxN => exact Laws.RoundTrip.lnoidxN
    | lnoidxI i => exact Laws.RoundTrip.lnoidxI i
    | lneverN => exact Laws.RoundTrip.lneverN
    | lneverI i => exact Laws.RoundTrip.lneverI i
    | dtsu s => exact Laws.RoundTrip.dtsu s
    | strRaw l => exact Laws.RoundTrip.strRaw l
    | strHuf l => exact Laws.RoundTrip.strHuf l
    | intCont g => exact Laws.RoundTrip.intCont g
    | intLast g => exact Laws.RoundTrip.intLast g
    | frameHdr length type flags r sid => exact Laws.RoundTrip.frameHdr length type flags r sid
  exact row hwf rest

/-- What the decoder reads is an octet of the fragment, or the nine bytes of a header. -/
theorem decode_ok_cases {p : Slot} {bytes rest : Bytes} {i : Instr} (h : decode p bytes = .ok (i, rest)) :
    (∃ c b, p = .octet c ∧ bytes = b :: rest ∧ i = decodeOctet c b) ∨
    ∃ h0 h1 h2 h3 h4 h5 h6 h7 h8, p = .frame ∧ bytes = [h0, h1, h2, h3, h4, h5, h6, h7, h8] ++ rest ∧
      i = decodeHeader h0 h1 h2 h3 h4 h5 h6 h7 h8 := by
  fun_cases decode p bytes with
  | case1 h0 h1 h2 h3 h4 h5 h6 h7 h8 rest' =>
    cases h
    exact .inr ⟨h0, h1, h2, h3, h4, h5, h6, h7, h8, rfl, rfl, rfl⟩
  | case2 | case4 => simp [decode] at h
  | case3 c b rest' =>
    cases h
    exact .inl ⟨c, b, rfl, rfl, rfl⟩

/-- Settles O2: an octet is its unit's encoding, and so are the nine bytes of a header. -/
theorem encodeOfDecode : Obligations.EncodeOfDecode := by
  intro p bytes i rest h
  obtain ⟨c, b, rfl, rfl, rfl⟩ | ⟨h0, h1, h2, h3, h4, h5, h6, h7, h8, rfl, rfl, rfl⟩ := decode_ok_cases h
  · obtain ⟨hwf, hslot, henc⟩ := decodeOctet_spec c b
    exact ⟨hwf, hslot, by rw [henc]; rfl⟩
  · exact ⟨rfl, rfl, by rw [encode_decodeHeader]⟩

/-! ## Octets by value -/

/-- A word is its upper bits, given by their value, over its lower ones. -/
theorem eq_append_setWidth {n k : Nat} (tag : BitVec n) (b : BitVec (n + k)) (h : b.toNat / 2 ^ k = tag.toNat) :
    b = tag ++ b.setWidth k := by
  apply BitVec.eq_of_toNat_eq
  rw [toNat_append_eq_add, BitVec.toNat_setWidth, ← h, Nat.div_add_mod']

/-- A field with a bit set is not the zero field of the literal-name forms (R75 to R77). -/
theorem setWidth_ne_zero {n k : Nat} (b : BitVec n) (h : b.toNat % 2 ^ k ≠ 0) : b.setWidth k ≠ 0 := fun h0 =>
  h (by rw [← BitVec.toNat_setWidth, h0]; rfl)

/-- Settles O3: each range of values is one tag in the upper bits, and the row of that tag decodes. -/
theorem firstByteMap : Obligations.FirstByteMap := by
  intro b
  refine ⟨?_, fun ⟨hlo, hhi⟩ => ?_, ?_, fun ⟨hlo, hhi⟩ => ?_, fun ⟨hlo, hhi⟩ => ?_, ?_, fun ⟨hlo, hhi⟩ => ?_,
    fun hlo => ?_⟩
  · rintro rfl
    exact decodeRep_lnoidxN
  · have hb := eq_append_setWidth (k := 4) 0b0000#4 b (show b.toNat / 16 = 0 by omega)
    exact (congrArg decodeRep hb).trans (decodeRep_lnoidxI _ (setWidth_ne_zero b (by omega)))
  · rintro rfl
    exact decodeRep_lneverN
  · have hb := eq_append_setWidth (k := 4) 0b0001#4 b (show b.toNat / 16 = 1 by omega)
    exact (congrArg decodeRep hb).trans (decodeRep_lneverI _ (setWidth_ne_zero b (by omega)))
  · have hb := eq_append_setWidth (k := 5) 0b001#3 b (show b.toNat / 32 = 1 by omega)
    exact (congrArg decodeRep hb).trans (decodeRep_dtsu _)
  · rintro rfl
    exact decodeRep_lincN
  · have hb := eq_append_setWidth (k := 6) 0b01#2 b (show b.toNat / 64 = 1 by omega)
    exact (congrArg decodeRep hb).trans (decodeRep_lincI _ (setWidth_ne_zero b (by omega)))
  · have hb := eq_append_setWidth (k := 7) 1#1 b (show b.toNat / 128 = 1 by omega)
    exact (congrArg decodeRep hb).trans (decodeRep_idx _)

/-- Settles O4: a value below 128 has bit 7 clear over its field, a value from 128 on has it set. -/
theorem stringAndContinuationBytes : Obligations.StringAndContinuationBytes := by
  intro b
  refine ⟨fun hlt => ?_, fun hge => ?_⟩
  · have hb := eq_append_setWidth (k := 7) 0#1 b (show b.toNat / 128 = 0 by omega)
    exact ⟨(congrArg decodeStr hb).trans (decodeStr_raw _), (congrArg decodeCont hb).trans (decodeCont_last _)⟩
  · have hb := eq_append_setWidth (k := 7) 1#1 b (show b.toNat / 128 = 1 by omega)
    exact ⟨(congrArg decodeStr hb).trans (decodeStr_huf _), (congrArg decodeCont hb).trans (decodeCont_cont _)⟩

/-- Settles O5: each word is its unit's encoding; the header's nine bytes are followed by one more. -/
theorem wordsFromTheSpec : Obligations.WordsFromTheSpec :=
  ⟨decodeOfEncode (.idx 2) [] rfl, decodeOfEncode (.lincI 1) [] rfl, decodeOfEncode (.lnoidxI 4) [] rfl,
    decodeOfEncode .lneverN [] rfl, decodeOfEncode (.dtsu 31) [] rfl, decodeOfEncode (.strHuf 12) [] rfl,
    decodeOfEncode (.intCont 97) [] rfl, decodeOfEncode (.frameHdr 20 1 4 false 1) [0x82] rfl⟩

end Sys2Proof
end

section
/-! PROOF. The prefixed integer read byte by byte (30_encoding R79, 41 R122), and the table word placed for the next
step. -/

namespace Sys2Proof.Machine

/-! ## The first byte -/

/-- A first byte whose integer field is all ones goes on with a continuation byte (41 R122). -/
theorem intPrefix_allOnes (n : Nat) (u : IntUse) (s : State) :
    intPrefix n (2 ^ n - 1) u s = .next { s with pass := some (.cont u (2 ^ n - 1) 0) } :=
  if_neg (Nat.lt_irrefl _)

/-- Settles O18: past its guard each unit decodes an integer whose first field is all ones. -/
theorem allOnesPrefixContinues : Obligations.AllOnesPrefixContinues := by
  intro s hn
  refine ⟨fun hp => ⟨?_, ?_, ?_, ?_, fun hs => ?_⟩, fun w hp => ⟨?_, ?_⟩⟩
  · exact (atRep_eq hn hp _).trans (intPrefix_allOnes 7 _ s)
  · exact (atRep_eq hn hp _).trans (intPrefix_allOnes 6 _ s)
  · exact (atRep_eq hn hp _).trans (intPrefix_allOnes 4 _ s)
  · exact (atRep_eq hn hp _).trans (intPrefix_allOnes 4 _ s)
  · exact ((atRep_eq hn hp _).trans (if_pos hs)).trans (intPrefix_allOnes 5 _ s)
  · exact (atStr_eq hn hp _).trans (intPrefix_allOnes 7 _ s)
  · exact (atStr_eq hn hp _).trans (intPrefix_allOnes 7 _ s)

/-! ## The continuation bytes -/

/-- Settles O19: past its guard `INT.CONT` only rewrites what the pass waits for. -/
theorem continuationByteAccumulates : Obligations.ContinuationByteAccumulates := fun _ _ _ _ _ hn hp =>
  atCont_eq hn hp _

/-- A byte with bit 7 set at the cursor of an integer is read as a further group. -/
theorem step_intCont {s : State} {u : IntUse} {acc m : Nat} {g : BitVec 7} (hn : s.nc = false)
    (hp : s.pass = some (.cont u acc m)) (hb : s.frag[s.pos]? = some (1#1 ++ g)) :
    step s = .next { s with pos := s.pos + 1, pass := some (.cont u (acc + g.toNat * 2 ^ (7 * m)) (m + 1)) } := by
  calc step s = exec (decodeCont (1#1 ++ g)) { s with pos := s.pos + 1 } := step_unit hn hp hb
    _ = exec (.intCont g) { s with pos := s.pos + 1 } := by rw [decodeCont_cont]
    _ = _ := continuationByteAccumulates { s with pos := s.pos + 1 } u acc m g hn hp

/-- A byte with bit 7 clear at the cursor of an integer is read as its last group. -/
theorem step_intLast {s : State} {u : IntUse} {acc m : Nat} {g : BitVec 7} (hn : s.nc = false)
    (hp : s.pass = some (.cont u acc m)) (hb : s.frag[s.pos]? = some (0#1 ++ g)) :
    step s = exec (.intLast g) { s with pos := s.pos + 1 } := by
  calc step s = exec (decodeCont (0#1 ++ g)) { s with pos := s.pos + 1 } := step_unit hn hp hb
    _ = exec (.intLast g) { s with pos := s.pos + 1 } := by rw [decodeCont_last]

/-- A run of continuation bytes at the cursor, from any value and scale on, is read in as many steps as it has bytes; the
last byte's unit finds the groups before it summed. -/
theorem runSteps_groupBytes {s : State} {u : IntUse} {acc m : Nat} {groups : List (BitVec 7)} {last : BitVec 7}
    {behind : Bytes} (hn : s.nc = false) (hp : s.pass = some (.cont u acc m))
    (hf : s.frag.drop s.pos = groupBytes groups last ++ behind) :
    runSteps (groups.length + 1) s = exec (.intLast last)
      { s with
        pos := s.pos + groups.length + 1
        pass := some (.cont u (acc + groupSum groups m) (m + groups.length)) } := by
  induction groups generalizing s acc m with
  | nil =>
    have hb : s.frag[s.pos]? = some (0#1 ++ last) := by
      rw [← List.head?_drop, hf]; rfl
    calc runSteps (0 + 1) s = step s := by rw [runSteps_succ_eq, after_zero]
      _ = exec (.intLast last) { s with pos := s.pos + 1 } := step_intLast hn hp hb
      _ = exec (.intLast last) { s with pos := s.pos + 1, pass := some (.cont u acc m) } := by rw [← hp]
  | cons g gs ih =>
    have hb : s.frag[s.pos]? = some (1#1 ++ g) := by
      rw [← List.head?_drop, hf]; rfl
    have hrest : s.frag.drop (s.pos + 1) = groupBytes gs last ++ behind := by
      rw [← List.tail_drop, hf]; rfl
    calc runSteps (gs.length + 1 + 1) s
        = runSteps (gs.length + 1)
            { s with pos := s.pos + 1, pass := some (.cont u (acc + g.toNat * 2 ^ (7 * m)) (m + 1)) } :=
          runSteps_next (step_intCont hn hp hb) _
      _ = _ := ih hn rfl hrest
      _ = _ := by simp only [List.length_cons, groupSum, Nat.add_assoc, Nat.add_comm 1]

/-- A last group weighs by the number of groups before it. -/
theorem groupSum_concat (groups : List (BitVec 7)) (last : BitVec 7) (m : Nat) :
    groupSum (groups ++ [last]) m = groupSum groups m + last.toNat * 2 ^ (7 * (m + groups.length)) := by
  induction groups generalizing m with
  | nil => simp [groupSum]
  | cons g gs ih =>
    simp only [List.cons_append, groupSum, ih, List.length_cons, Nat.add_assoc, Nat.add_comm 1]

/-- Settles O21: the run stands at the cursor, and is read from scale 0 on. -/
theorem continuationBytesSumUp : Obligations.ContinuationBytesSumUp := by
  intro s u base groups last before behind hn hp hpos hfrag
  have hdrop : s.frag.drop s.pos = groupBytes groups last ++ behind := by
    rw [hfrag, hpos, List.append_assoc, List.drop_left]
  refine ⟨?_, ?_⟩
  · rw [runSteps_groupBytes hn hp hdrop, hpos, Nat.zero_add]
  · rw [groupSum_concat, Nat.zero_add]

/-! ## A placed table word -/

/-- A 72-bit table word is a header, whatever follows it in the buffer. -/
theorem decode_tableBytes_header (w : Nat) :
    ∃ i, ∀ rest, decode .frame (tableBytes 72 w ++ rest) = .ok (i, rest) :=
  ⟨_, fun _ => rfl⟩

/-- Settles O56: an 8-bit word stands at the cursor of a pass just begun, a 72-bit word at the front of IB in phase FH. -/
theorem placedWordRuns : Obligations.PlacedWordRuns := by
  intro s w
  refine ⟨step_unit (s := s.withFetchWord 8 w) (w := .rep) rfl rfl rfl, ?_⟩
  obtain ⟨i, hi⟩ := decode_tableBytes_header w
  refine ⟨i, ?_, step_header rfl rfl rfl rfl (hi _)⟩
  have hw : decode (tableSlot 72) (tableBytes 72 w) = .ok (i, []) := hi []
  rw [decodeTableWord, hw]

end Sys2Proof.Machine
end

section
/-! PROOF. What a unit of a pass leaves unchanged and what it adds to OUT (40 R106, 42 R147, R148, 60 R208). -/

namespace Sys2Proof.Machine

/-- A unit of a pass appends nothing to OUT, a field with SUOK cleared, or an error with NC set. -/
theorem PassStep.output {s t : State} (h : PassStep s t) :
    t.out = s.out ∧ t.nc = s.nc ∨
      (∃ hd, t.out = s.out ++ [.ok hd] ∧ t.nc = s.nc ∧ t.suok = false) ∨
      ∃ k, t.out = s.out ++ [.err k] ∧ t.nc = true := by
  cases h with
  | goesOn n w hn ht | resizes n hn ht => subst ht; exact .inl ⟨rfl, rfl⟩
  | yields n hd hn ht | inserts n hd hn ht => subst ht; exact .inr (.inl ⟨hd, rfl, rfl, rfl⟩)
  | fails n k hn ht => subst ht; exact .inr (.inr ⟨k, rfl, rfl⟩)

/-- Settles O39, by the frame of a unit of a pass and what it adds to OUT. -/
theorem passUnitsFrame : Obligations.PassUnitsFrame := by
  intro x s t hx h
  obtain ⟨-, -, hs⟩ := exec_pass_cases hx h
  rw [hs.frame]
  exact ⟨rfl, rfl, rfl, rfl, rfl, rfl, rfl, rfl, rfl, rfl, rfl, hs.output⟩

end Sys2Proof.Machine
end

section
/-! PROOF. The two parses on a buffer (40 R100, R101), and the same called by the host (46 R180, 60 R220 a). -/

namespace Sys2Proof.Machine

/-! ## The parses -/

/-- When a header fails (40 R100). -/
theorem headerFails_iff {maxf : Word} {len : BitVec 24} {r : Bool} :
    headerFails maxf len r = true ↔ r = true ∨ maxf.toNat < len.toNat := by simp [headerFails]

theorem fhParse_of_short {maxf : Word} {ib : Bytes} (hl : ib.length < 9) : fhParse maxf ib = none := by
  rcases fhParse_cases maxf ib with ⟨-, hp⟩ | ⟨h9, -⟩
  · exact hp
  · omega

/-- Settles O44: the parse makes its record of the fields that O6 gives of the nine bytes. -/
theorem headerParse : Obligations.HeaderParse := by
  refine fun maxf => ⟨fun ib => fhParse_of_short, fun h0 h1 h2 h3 h4 h5 h6 h7 h8 rest => ?_⟩
  obtain ⟨len, r, sid, hd, hlen, hsid⟩ := headerFieldsBigEndian h0 h1 h2 h3 h4 h5 h6 h7 h8 rest
  obtain rfl : h5.getLsbD 7 = r := by cases hd; rfl
  exact ⟨_, fhParse_of_decode hd, hlen, rfl, rfl, hsid, headerFails_iff⟩

/-- Settles O45, by the two cases of the parse. -/
theorem bodyParse : Obligations.BodyParse := fun _ _ => ⟨fbParse_of_lt, fbParse_of_le⟩

/-! ## The parses called by the host -/

/-- An operation that is no stalled `FEED`, pending at the host's turn, is what the step performs. -/
theorem step_hostOp {s : State} {op : HostOp} {ops : List HostOp} (hn : s.nc = false) (ht : HostsTurn s)
    (hs : s.host = op :: ops) (hst : stalled op s = false) : step s = hostOp op (s.setHost ops) :=
  (step_hostsTurn hn ht).trans (hostTurn_takes hs hst)

theorem hostFhParse_none {s : State} (hn : s.nc = false) (hp : fhParse s.maxf s.ib = none) :
    hostFhParse s = .next { s with ret := .header none } := by
  simp [hostFhParse, hn, hp, State.setRet]

theorem hostFhParse_some {s : State} {h : FrameHeader} {rest : Bytes} (hn : s.nc = false)
    (hp : fhParse s.maxf s.ib = some (h, rest)) :
    hostFhParse s = .next { s with ib := rest, ret := .header (some h) } := by
  simp [hostFhParse, hn, hp, State.setRet, State.setIb]

theorem hostFbParse_refused {s : State} {h : FrameHeader} (hh : h.failure = true) :
    hostFbParse h s = .refused .failingHeader := if_pos hh

theorem hostFbParse_none {s : State} {h : FrameHeader} (hn : s.nc = false) (hh : h.failure = false)
    (hl : s.ib.length < h.length.toNat) : hostFbParse h s = .next { s with ret := .body none } := by
  simp [hostFbParse, hn, hh, fbParse_of_lt hl, State.setRet]

theorem hostFbParse_some {s : State} {h : FrameHeader} (hn : s.nc = false) (hh : h.failure = false)
    (hl : h.length.toNat ≤ s.ib.length) :
    hostFbParse h s = .next
      { s with ib := s.ib.drop h.length.toNat, ret := .body (some (s.ib.take h.length.toNat)) } := by
  simp [hostFbParse, hn, hh, fbParse_of_le hl, State.setRet, State.setIb]

/-- Settles O55: at the host's turn the step is the parse called, on the state without the call. -/
theorem directParseCalls : Obligations.DirectParseCalls := by
  intro s ops hn ht
  refine ⟨fun hs => ?_, fun h hs => ?_⟩
  · rw [step_hostOp hn ht hs rfl]
    exact ⟨fun hl => hostFhParse_none (s := s.setHost ops) hn (fhParse_of_short hl),
      fun h rest => hostFhParse_some (s := s.setHost ops) hn⟩
  · rw [step_hostOp hn ht hs rfl]
    exact ⟨hostFbParse_refused, hostFbParse_none (s := s.setHost ops) hn, hostFbParse_some (s := s.setHost ops) hn⟩

end Sys2Proof.Machine
end

section
/-! PROOF. The steps of the sequencer (40 R103 to R105, 60 R214), that they are `STEP` written as one function, and a whole
frame fed, parsed and delivered (40 R102). -/

namespace Sys2Proof.Machine

/-! ## Suspension -/

theorem hostTurn_rests {s : State} (hs : s.host = []) : hostTurn s = .next s := by simp [hostTurn, hs]

/-- Settles O48: what the statement lists is the host's turn, and the host has nothing. -/
theorem sequencerSuspends : Obligations.SequencerSuspends := fun _ hn hp hs ht =>
  (step_hostsTurn hn ⟨hp, ht⟩).trans (hostTurn_rests hs)

/-! ## Phase FH -/

theorem acceptHeader_failing {h : FrameHeader} (hh : h.failure = true) (s : State) :
    acceptHeader h s = { s with nc := true } := if_pos hh

theorem acceptHeader_sound {h : FrameHeader} (hh : h.failure = false) (s : State) :
    acceptHeader h s = { s with ph := some h, phase := .fb } := by simp [acceptHeader, hh, State.awaitBody]

/-- The unit `FRAME_HDR`, where the sequencer reads it, accepts or fails the header it makes of its fields (40 R103). -/
theorem exec_frameHdr {s : State} (hn : s.nc = false) (hp : s.pass = none) (hf : s.phase = .fh) (ha : s.ackDue = false)
    (len : BitVec 24) (type flags : BitVec 8) (r : Bool) (sid : BitVec 31) :
    exec (.frameHdr len type flags r sid) s = .next (acceptHeader (parsedHeader s.maxf len type flags r sid) s) :=
  atHeader_eq hn hp hf ha _

/-- The step in phase FH accepts or fails the header at the front of IB, its nine bytes taken. -/
theorem step_frameHdr {s : State} (hn : s.nc = false) (hp : s.pass = none) (hf : s.phase = .fh) (ha : s.ackDue = false)
    {len : BitVec 24} {type flags : BitVec 8} {r : Bool} {sid : BitVec 31} {rest : Bytes}
    (hd : decode .frame s.ib = .ok (.frameHdr len type flags r sid, rest)) :
    step s = .next (acceptHeader (parsedHeader s.maxf len type flags r sid) (s.setIb rest)) :=
  (step_header hn hp ha hf hd).trans (exec_frameHdr (s := s.setIb rest) hn hp hf ha len type flags r sid)

/-- A header with the reserved bit clear and a length within MAXF is the record of its fields, not failing (40 R100). -/
theorem parsedHeader_sound {maxf : Word} {len : BitVec 24} (hl : len.toNat ≤ maxf.toNat) (type flags : BitVec 8)
    (sid : BitVec 31) : parsedHeader maxf len type flags false sid = ⟨len, type, flags, sid, false⟩ := by
  simp [parsedHeader, headerFails, hl]

/-- Settles O46: the unit and the step do with the parsed header what its failure flag says. -/
theorem frameHeaderIsAcceptedOrFatal : Obligations.FrameHeaderIsAcceptedOrFatal := by
  intro s hn hp hf ha
  refine ⟨fun hl hs => sequencerSuspends s hn hp hs (.inr (.inl ⟨hf, hl⟩)),
    fun len type flags r sid => ⟨fun hbad => ?_, ?_⟩⟩
  · have hh : (parsedHeader s.maxf len type flags r sid).failure = true := headerFails_iff.mpr hbad
    refine ⟨?_, fun rest hd => ?_⟩
    · rw [exec_frameHdr hn hp hf ha, acceptHeader_failing hh]
    · rw [step_frameHdr hn hp hf ha hd, acceptHeader_failing hh]
      rfl
  · rintro rfl hl
    refine ⟨?_, fun rest hd => ?_⟩
    · rw [exec_frameHdr hn hp hf ha, parsedHeader_sound hl, acceptHeader_sound rfl]
    · rw [step_frameHdr hn hp hf ha hd, parsedHeader_sound hl, acceptHeader_sound rfl]
      rfl

/-! ## Phase FB -/

/-- Settles O47: the whole payload is delivered, and with less of it O48 applies. -/
theorem completedFrameIsDelivered : Obligations.CompletedFrameIsDelivered := fun s h hn hp ha hf hph hh =>
  ⟨step_deliver hn hp ha hf hph hh,
    fun hl hs => sequencerSuspends s hn hp hs (.inr (.inr ⟨h, hf, hph, hh, hl⟩))⟩

/-! ## `STEP` and `RUN` -/

/-- Settles O49, by the phase: a header is parsed by both in the same way, and the pending header does not fail. -/
theorem stepIsTheSequencerStep : Obligations.StepIsTheSequencerStep := by
  intro s hi hp ha he
  obtain ⟨hn, ⟨hf, h9⟩ | ⟨h, hf, hph, hl⟩⟩ := stepEnabled_iff.mp he
  · rcases decode_frame_cases s.ib with ⟨-, len, type, flags, r, sid, hd⟩ | ⟨hlt, -⟩
    · rw [step_frameHdr hn hp hf ha hd, sequencerStep_header hf (fhParse_of_decode hd)]
    · omega
  · rw [step_deliver hn hp ha hf hph (hi.pendingSound h hph) hl, sequencerStep_body hf hph hl]
    rfl

/-- Settles O50, by the induction over the turns of `RUN`. -/
theorem runDrainsWithinTheBound : Obligations.RunDrainsWithinTheBound := stepEnabled_runSequencer

/-! ## A frame fed -/

/-- A `FEED` stalls only for want of room in a finite `IB_CAP`. -/
theorem stalled_feed_of_room {s : State} {chunk : Bytes}
    (hroom : ∀ cap, s.cfg.ibCap = some cap → s.ib.length + chunk.length ≤ cap) : stalled (.feed chunk) s = false := by
  cases hc : s.cfg.ibCap with
  | none => simp [stalled, hc]
  | some cap =>
    have hle := hroom cap hc
    simp [stalled, hc, Nat.not_lt.mpr hle]

/-- A chunk that has room is appended to IB at the host's turn (46 R181). -/
theorem step_feed {s : State} {chunk : Bytes} {ops : List HostOp} (hn : s.nc = false) (ht : HostsTurn s)
    (hs : s.host = .feed chunk :: ops)
    (hroom : ∀ cap, s.cfg.ibCap = some cap → s.ib.length + chunk.length ≤ cap) :
    step s = .next { s with ib := s.ib ++ chunk, host := ops } := by
  rw [step_hostOp hn ht hs (stalled_feed_of_room hroom)]
  simp [hostOp, hostFeed, hn, State.setIb, State.setHost]

/-- Settles O51: the chunk is appended, its first nine bytes are an accepted header, the rest is the payload. -/
theorem encodedFrameIsDelivered : Obligations.EncodedFrameIsDelivered := by
  intro s len type flags sid payload ops hn hp ha hf hib hcap hlen hmax hs
  have ht : HostsTurn s := ⟨hp, .inr (.inl ⟨hf, by simp [hib]⟩)⟩
  have feeds : step s = .next { s with ib := frameEncode len type flags sid payload, host := ops } := by
    rw [step_feed hn ht hs (by simp [hcap]), hib, List.nil_append]
  have accepts : step { s with ib := frameEncode len type flags sid payload, host := ops } =
      .next { s with ib := payload, ph := some ⟨len, type, flags, sid, false⟩, phase := .fb, host := ops } :=
    (((frameHeaderIsAcceptedOrFatal { s with ib := frameEncode len type flags sid payload, host := ops }
      hn hp hf ha).2 len type flags false sid).2 rfl hmax).2 payload
      (decode_headerBytes len type flags false sid payload)
  have delivers := step_deliver (h := ⟨len, type, flags, sid, false⟩)
    (s := { s with ib := payload, ph := some ⟨len, type, flags, sid, false⟩, phase := .fb, host := ops })
    hn hp ha rfl rfl rfl hlen.ge
  rw [runSteps_next feeds, runSteps_next accepts, runSteps_one delivers]
  simp [← hlen, hib, hf]

end Sys2Proof.Machine
end

section
/-! PROOF. What a step does with the fragment: it runs the unit read, and at the end of the fragment ends the pass or
raises `H_TRUNC` (41 R120, 42 R140, 60 R208). -/

namespace Sys2Proof.Machine

/-- Settles O12, by the two fetches that run a unit. -/
theorem stepRunsTheDecodedUnit : Obligations.StepRunsTheDecodedUnit :=
  ⟨fun _ _ _ => step_unit, fun _ _ _ => step_header⟩

/-- Settles O13, by the two cases of a read at the end of the fragment. -/
theorem endOfTheFragment : Obligations.EndOfTheFragment := fun _ _ hn hp hl =>
  ⟨fun hw => (step_atEnd hn hp hl).trans (if_pos hw), fun hw => (step_atEnd hn hp hl).trans (if_neg hw)⟩

end Sys2Proof.Machine
end

section
/-! PROOF. The prefixed integer as a function (41 R122, R123) against its encoder (R129). The groups of an encoding are
the digits of the value to base 128, so the loop of R122 adds them up to the value, and only then tests the bound. -/

namespace Sys2Proof.Machine

/-! ## The first byte -/

/-- A field put under higher bits is read back by its width (30 R79). -/
theorem field_of_high_or {n p : Nat} {high : Byte} (hn : n ≤ 8) (hh : high.toNat % 2 ^ n = 0) (hp : p < 2 ^ n) :
    (high ||| BitVec.ofNat 8 p).toNat % 2 ^ n = p := by
  rw [BitVec.toNat_or, Nat.or_mod_two_pow, hh, Nat.zero_or, BitVec.toNat_ofNat,
    Nat.mod_mod_of_dvd _ (Nat.pow_dvd_pow 2 hn), Nat.mod_eq_of_lt hp]

/-- A field that is not all ones is the integer. -/
theorem readInt_of_lt {n p : Nat} {first : Byte} (hf : first.toNat % 2 ^ n = p) (hp : p < 2 ^ n - 1) (frag : Bytes)
    (pos : Nat) : readInt frag n first pos = .ok (p, pos) := by simp [readInt, hf, hp]

/-- A field of all ones goes on to the groups. -/
theorem readInt_allOnes {n : Nat} {first : Byte} (hf : first.toNat % 2 ^ n = 2 ^ n - 1) (frag : Bytes) (pos : Nat) :
    readInt frag n first pos = readGroups frag (frag.length - pos + 1) (2 ^ n - 1) 0 pos := by simp [readInt, hf]

/-! ## The groups -/

/-- Bit 7 of a byte is its weight of 128. -/
theorem flag_eq_decide (c : Byte) : c.getLsbD 7 = decide (128 ≤ c.toNat) :=
  (BitVec.msb_eq_getLsbD_last c).symm.trans (BitVec.msb_eq_decide c)

/-- The end of `DecodeInt` (41 R122) as a read: the bound is tested once, after the last byte. -/
def boundedInt (v pos : Nat) : Read Nat :=
  if 2 ^ 32 - 1 < v then .error (.hIntOverflow, pos) else .ok (v, pos)

theorem boundedInt_of_le {v : Nat} (hv : v ≤ 2 ^ 32 - 1) (pos : Nat) : boundedInt v pos = .ok (v, pos) :=
  if_neg (Nat.not_lt.mpr hv)

theorem readByte_of_drop {frag behind : Bytes} {pos : Nat} {c : Byte} (hf : frag.drop pos = c :: behind) :
    readByte frag pos = .ok (c, pos + 1) := by
  have hc : frag[pos]? = some c := by rw [← List.head?_drop, hf]; rfl
  simp [readByte, hc]

/-- A byte with bit 7 set adds its group, and the loop goes on. -/
theorem readGroups_cont {frag behind : Bytes} {pos : Nat} {c : Byte} (hf : frag.drop pos = c :: behind)
    (hc : 128 ≤ c.toNat) (turns acc m : Nat) :
    readGroups frag (turns + 1) acc m pos =
      readGroups frag turns (acc + c.toNat % 128 * 2 ^ (7 * m)) (m + 1) (pos + 1) := by
  have flag : c.getLsbD 7 = true := (flag_eq_decide c).trans (decide_eq_true hc)
  simp only [readGroups, readByte_of_drop hf, flag, if_true]

/-- A byte with bit 7 clear adds the last group, and the bound is tested. -/
theorem readGroups_last {frag behind : Bytes} {pos : Nat} {c : Byte} (hf : frag.drop pos = c :: behind)
    (hc : c.toNat < 128) (turns acc m : Nat) :
    readGroups frag (turns + 1) acc m pos = boundedInt (acc + c.toNat * 2 ^ (7 * m)) (pos + 1) := by
  have flag : c.getLsbD 7 = false := (flag_eq_decide c).trans (decide_eq_false (Nat.not_le.mpr hc))
  simp only [readGroups, readByte_of_drop hf, flag, Bool.false_eq_true, if_false, Nat.mod_eq_of_lt hc, boundedInt]

/-- A value below 128 is one group. -/
theorem encodeGroups_of_lt {v : Nat} (hv : v < 128) (fuel : Nat) : encodeGroups fuel v = [BitVec.ofNat 8 v] := by
  cases fuel with
  | zero => rfl
  | succ fuel => exact if_neg (Nat.not_le.mpr hv)

/-- A value from 128 on is its lowest group, bit 7 set, before the groups of the rest. -/
theorem encodeGroups_of_ge {v : Nat} (hv : 128 ≤ v) (fuel : Nat) :
    encodeGroups (fuel + 1) v = BitVec.ofNat 8 (128 + v % 128) :: encodeGroups fuel (v / 128) := by
  have flag : 0x80 ||| v % 128 = 128 + v % 128 :=
    (Nat.two_pow_add_eq_or_of_lt (i := 7) (Nat.mod_lt v (by decide)) 1).symm
  rw [encodeGroups, if_pos hv, flag]

/-- The lowest group at its scale and the rest at the next are the whole. -/
theorem group_add_rest (v m : Nat) : v % 128 * 2 ^ (7 * m) + v / 128 * 2 ^ (7 * (m + 1)) = v * 2 ^ (7 * m) := by
  calc v % 128 * 2 ^ (7 * m) + v / 128 * 2 ^ (7 * (m + 1))
      = (v % 128 + 128 * (v / 128)) * 2 ^ (7 * m) := by rw [Nat.mul_succ, Nat.pow_add]; ring
    _ = v * 2 ^ (7 * m) := by rw [Nat.mod_add_div]

/-- A value of one group, read at any sum and scale. -/
theorem readGroups_encodeGroups_of_lt {frag behind : Bytes} {fuel v acc m pos turns : Nat} (hv : v < 128)
    (hf : frag.drop pos = encodeGroups fuel v ++ behind) (ht : (encodeGroups fuel v).length ≤ turns) :
    readGroups frag turns acc m pos =
      boundedInt (acc + v * 2 ^ (7 * m)) (pos + (encodeGroups fuel v).length) := by
  rw [encodeGroups_of_lt hv] at hf ht ⊢
  obtain ⟨turns, rfl⟩ := Nat.exists_eq_add_of_le' ht
  have hb : (BitVec.ofNat 8 v).toNat = v := Nat.mod_eq_of_lt (by omega)
  rw [List.length_singleton, readGroups_last hf (by omega), hb]

/-- The groups of a value, read from any sum and scale on, add the value at that scale. -/
theorem readGroups_encodeGroups {frag behind : Bytes} {fuel v acc m pos turns : Nat} (hv : v ≤ fuel)
    (hf : frag.drop pos = encodeGroups fuel v ++ behind) (ht : (encodeGroups fuel v).length ≤ turns) :
    readGroups frag turns acc m pos =
      boundedInt (acc + v * 2 ^ (7 * m)) (pos + (encodeGroups fuel v).length) := by
  induction fuel generalizing v acc m pos turns with
  | zero => exact readGroups_encodeGroups_of_lt (by omega) hf ht
  | succ fuel ih =>
    rcases Nat.lt_or_ge v 128 with hlt | hge
    · exact readGroups_encodeGroups_of_lt hlt hf ht
    · rw [encodeGroups_of_ge hge, List.cons_append] at hf
      rw [encodeGroups_of_ge hge, List.length_cons] at ht ⊢
      obtain ⟨turns, rfl⟩ := Nat.exists_eq_add_of_le' (Nat.le_of_add_left_le ht)
      have hb : (BitVec.ofNat 8 (128 + v % 128)).toNat = 128 + v % 128 := Nat.mod_eq_of_lt (by omega)
      have hrest : frag.drop (pos + 1) = encodeGroups fuel (v / 128) ++ behind := by
        rw [← List.tail_drop, hf]; rfl
      rw [readGroups_cont hf (by omega), ih (by omega) hrest (by omega), hb, Nat.add_mod_left, Nat.mod_mod,
        Nat.add_assoc, group_add_rest, Nat.add_assoc, Nat.add_comm 1]

/-! ## The law of R129 -/

/-- Decoding the shortest spelling of any value reads all of it, and gives the value if it is within the bound. -/
theorem readInt_encodeInt {n v : Nat} {high first : Byte} {more : Bytes} (hn : n ≤ 8) (hh : high.toNat % 2 ^ n = 0)
    (he : encodeInt n v high = first :: more) (rest : Bytes) :
    readInt (first :: more ++ rest) n first 1 = boundedInt v (more.length + 1) := by
  have hpow : 2 ^ n ≤ 2 ^ 8 := Nat.pow_le_pow_right (by decide) hn
  have hpos : 0 < 2 ^ n := Nat.two_pow_pos n
  unfold encodeInt at he
  split at he
  · next hv =>
    cases he
    rw [readInt_of_lt (field_of_high_or hn hh (by omega)) hv, boundedInt_of_le (by omega)]
    rfl
  · next hv =>
    cases he
    have hsum : 2 ^ n - 1 + (v - (2 ^ n - 1)) = v := Nat.add_sub_cancel' (Nat.not_lt.mp hv)
    rw [readInt_allOnes (field_of_high_or hn hh (by omega)),
      readGroups_encodeGroups (Nat.sub_le v _) rfl (by simp; omega), Nat.mul_zero, Nat.pow_zero, Nat.mul_one, hsum,
      Nat.add_comm 1]

/-- A spelling has a first byte. -/
theorem exists_encodeInt_eq_cons (n v : Nat) (high : Byte) : ∃ first more, encodeInt n v high = first :: more := by
  unfold encodeInt
  split <;> exact ⟨_, _, rfl⟩

/-- Settles O22: the shortest spelling of a value within the bound. -/
theorem encodedIntegerDecodes : Obligations.EncodedIntegerDecodes := by
  intro n v high rest hn hv hh
  obtain ⟨first, more, he⟩ := exists_encodeInt_eq_cons n v high
  have hn8 : n ≤ 8 := (show ∀ k ∈ [4, 5, 6, 7], k ≤ 8 by decide) n hn
  exact ⟨first, more, he, (readInt_encodeInt hn8 hh he rest).trans (boundedInt_of_le hv _)⟩

/-- Settles O23: the bytes are the shortest spellings of the values, to which the law of R129 applies on both sides of the
bound. -/
theorem integerBoundaries : Obligations.IntegerBoundaries := by
  have reads : ∀ (n v : Nat) (first : Byte) (more : Bytes), n ≤ 8 → encodeInt n v 0 = first :: more →
      readInt (first :: more) n first 1 = boundedInt v (more.length + 1) := fun n v first more hn he => by
    simpa using readInt_encodeInt hn (Nat.zero_mod _) he []
  exact ⟨reads 4 14 0x0E [] (by decide) rfl, reads 5 30 0x1E [] (by decide) rfl, reads 6 62 0x3E [] (by decide) rfl,
    reads 7 126 0x7E [] (by decide) rfl,
    reads 4 4294967295 0x0F [0xF0, 0xFF, 0xFF, 0xFF, 0x0F] (by decide) rfl,
    reads 5 4294967295 0x1F [0xE0, 0xFF, 0xFF, 0xFF, 0x0F] (by decide) rfl,
    reads 6 4294967295 0x3F [0xC0, 0xFF, 0xFF, 0xFF, 0x0F] (by decide) rfl,
    reads 7 4294967295 0x7F [0x80, 0xFF, 0xFF, 0xFF, 0x0F] (by decide) rfl,
    reads 4 4294967296 0x0F [0xF1, 0xFF, 0xFF, 0xFF, 0x0F] (by decide) rfl,
    reads 5 4294967296 0x1F [0xE1, 0xFF, 0xFF, 0xFF, 0x0F] (by decide) rfl,
    reads 6 4294967296 0x3F [0xC1, 0xFF, 0xFF, 0xFF, 0x0F] (by decide) rfl,
    reads 7 4294967296 0x7F [0x81, 0xFF, 0xFF, 0xFF, 0x0F] (by decide) rfl⟩

end Sys2Proof.Machine
end

section
/-! PROOF. The dynamic table (10_state R27, R28, 41 R125 to R128). -/

namespace Sys2Proof.Machine

/-- Settles O31: a static row, whose index is within the table's 61, a dynamic entry, or nothing. -/
theorem lookupIsStaticThenDynamic : Obligations.LookupIsStaticThenDynamic := by
  intro i dt hi
  refine ⟨fun hle => ⟨lookup_static hle dt, ?_⟩, ?_, lookup_none⟩
  · rw [lookup_static hle, isSome_getElem?, staticTable_length]
    omega
  · rintro k h rfl hk
    rw [lookup_dynamic (Nat.le_add_right 62 k), Nat.add_sub_cancel_left, hk]
    rfl

/-- Settles O33: the table is the only field written, and the loop's specification with as many turns as entries. -/
theorem evictionKeepsTheNewest : Obligations.EvictionKeepsTheNewest :=
  ⟨fun _ _ => rfl, fun bound dt => evictLoop_spec bound dt.length dt le_rfl⟩

/-- The newest entry has index 62 (41 R125). -/
theorem lookup_newest (h : Header) (dt : List Header) : lookup 62 (h :: dt) = some ⟨h.name, some h.value⟩ :=
  lookup_dynamic le_rfl (h :: dt)

/-- Settles O34, by the two cases of an insertion. -/
theorem insertionPolicy : Obligations.InsertionPolicy := by
  refine ⟨fun _ _ => rfl, fun mts h dt => ⟨inserted_le mts h dt, fun hgt => inserted_of_gt hgt dt, fun hle => ?_⟩⟩
  have hi : inserted mts h dt = h :: evict ((mts : Int) - entrySize h) dt := inserted_of_le hle dt
  exact ⟨hi, by rw [hi, lookup_newest]⟩

end Sys2Proof.Machine
end

section
/-! PROOF. A raw string once its length is known, and a literal's name once its name index is known (41 R121, R124, R130, 60
R204, R207, R213). -/

namespace Sys2Proof.Machine

/-! ## The operations -/

/-- A string longer than what is left is `H_TRUNC`, the cursor where it was (41 R121). -/
theorem stringData_truncated {n : Nat} {s : State} (hl : s.frag.length - s.pos < n) (f : Bool) (w : StrUse) :
    stringData f w n s = .next (failed .hTrunc s) := by
  rw [stringData, takeBytes_of_gt hl]
  rfl

/-- A raw string whole in the fragment is checked by `TextOk`, the cursor past it (41 R124). -/
theorem stringData_raw {n : Nat} {s : State} (hl : n ≤ s.frag.length - s.pos) (w : StrUse) :
    stringData false w n s =
      if textOk s.cfg ((s.frag.drop s.pos).take n) then stringDone w ((s.frag.drop s.pos).take n) (s.setPos (s.pos + n))
      else .next (failed .hText (s.setPos (s.pos + n))) := by
  rw [stringData, takeBytes_of_le hl]
  rfl

/-- Name index 0: a name string follows (41 R130). -/
theorem nameIndexDone_zero (k : LitKind) (s : State) :
    nameIndexDone k 0 s = .next { s with pass := some (.str (.name k)) } := rfl

/-- A name index of an entry gives its name, and the value string follows (41 R130). -/
theorem nameIndexDone_entry {k : LitKind} {i : Nat} {s : State} {e : Entry} (hi : i ≠ 0) (he : lookup i s.dt = some e) :
    nameIndexDone k i s = .next { s with pass := some (.str (.value k e.name)) } := by
  simp [nameIndexDone, hi, he, State.setWant]

/-- A name index of no entry is `H_INDEX_RANGE` (60 R207). -/
theorem nameIndexDone_range {k : LitKind} {i : Nat} {s : State} (hi : i ≠ 0) (he : lookup i s.dt = none) :
    nameIndexDone k i s = .next (failed .hIndexRange s) := by
  simp [nameIndexDone, hi, he, raise_eq]

/-! ## The statements -/

/-- Settles O24: the unit hands its length to the string, whose octets are taken before they are checked. -/
theorem rawStringErrors : Obligations.RawStringErrors := by
  intro x s w v hd
  have hx : exec x s = stringData false w v s := (exec_of_delivers hd).2
  refine ⟨fun hl => hx.trans (stringData_truncated hl _ _), fun hl ht => ?_⟩
  rw [hx, stringData_raw hl, ht]
  rfl

/-- Settles O25: the string accepted is the name of the literal. -/
theorem rawNameString : Obligations.RawNameString := by
  intro x s k v hd hl ht
  have hx : exec x s = stringData false (.name k) v s := (exec_of_delivers hd).2
  rw [hx, stringData_raw hl, ht]
  rfl

/-- Settles O36: the unit hands its index to the literal, and `Lookup` has the three answers of R125. -/
theorem literalName : Obligations.LiteralName := by
  intro x s k v hd
  have hx : exec x s = nameIndexDone k v s := (exec_of_delivers hd).2
  rw [hx]
  refine ⟨?_, fun e hpos hle he => ?_, fun h hge hh => ?_, fun hgt => ?_⟩
  · rintro rfl
    exact nameIndexDone_zero k s
  · exact nameIndexDone_entry (by omega) ((lookup_static hle s.dt).trans he)
  · exact nameIndexDone_entry (e := ⟨h.name, some h.value⟩) (by omega) (by rw [lookup_dynamic hge, hh]; rfl)
  · exact nameIndexDone_range (by omega) (lookup_none hgt)

end Sys2Proof.Machine
end

section
/-! PROOF. The representations once their last operand is known: a raw value ends a literal, an index gives its entry, a
new size evicts (42 R142 to R147, 60 R206, R207, R209, R211); and the host's call that starts a pass (42 R140, 46
R186). -/

namespace Sys2Proof.Machine

/-! ## Literals -/

/-- A literal without indexing or never indexed leaves the table alone (42 R144, R145). -/
theorem literalDone_unindexed {k : LitKind} (hk : k ≠ .linc) (h : Header) (s : State) :
    literalDone k h s = .next { s with suok := false, out := s.out ++ [.ok h], pass := some .rep } := by
  cases k with
  | linc => exact absurd rfl hk
  | lnoidx | lnever => rfl

/-- A literal with incremental indexing is inserted (42 R143). -/
theorem literalDone_linc (h : Header) (s : State) :
    literalDone .linc h s = .next
      { s with suok := false, out := s.out ++ [.ok h], dt := inserted s.mts.toNat h s.dt, pass := some .rep } := rfl

/-- A raw string whole in the fragment and accepted goes to what it was read for (41 R124). -/
theorem exec_rawString {x : Instr} {s : State} {w : StrUse} {v : Nat} (hd : Delivers (.strLen false w) x s v)
    (hl : v ≤ s.frag.length - s.pos) (ht : textOk s.cfg ((s.frag.drop s.pos).take v) = true) :
    exec x s = stringDone w ((s.frag.drop s.pos).take v) (s.setPos (s.pos + v)) := by
  have hx : exec x s = stringData false w v s := (exec_of_delivers hd).2
  rw [hx, stringData_raw hl, if_pos ht]

/-- Settles O26: the accepted value completes the literal, which is not inserted. -/
theorem rawValueEndsUnindexedLiteral : Obligations.RawValueEndsUnindexedLiteral := fun _ _ _ _ _ hk hd hl ht =>
  (exec_rawString hd hl ht).trans (literalDone_unindexed hk _ _)

/-- Settles O27: the accepted value completes the literal, which is inserted. -/
theorem rawValueEndsIndexedLiteral : Obligations.RawValueEndsIndexedLiteral := fun _ _ _ _ hd hl ht =>
  (exec_rawString hd hl ht).trans (literalDone_linc _ _)

/-! ## Indexed fields -/

theorem indexDone_zero (s : State) : indexDone 0 s = .next (failed .hIndexZero s) := rfl

/-- An index of no entry (60 R207). -/
theorem indexDone_range {i : Nat} {s : State} (hi : i ≠ 0) (he : lookup i s.dt = none) :
    indexDone i s = .next (failed .hIndexRange s) := by simp [indexDone, hi, he, raise_eq]

/-- An index of an entry without value (60 R209). -/
theorem indexDone_noValue {i : Nat} {s : State} {name : Bytes} (hi : i ≠ 0) (he : lookup i s.dt = some ⟨name, none⟩) :
    indexDone i s = .next (failed .hNoValue s) := by simp [indexDone, hi, he, raise_eq]

/-- An index of an entry with value emits it (42 R142). -/
theorem indexDone_entry {i : Nat} {s : State} {name value : Bytes} (hi : i ≠ 0)
    (he : lookup i s.dt = some ⟨name, some value⟩) :
    indexDone i s = .next { s with suok := false, out := s.out ++ [.ok ⟨name, value⟩], pass := some .rep } := by
  simp [indexDone, hi, he, State.clearSuok, State.emit, State.setWant]

/-- Settles O35: the unit hands its index to `IDX`, and `Lookup` has the answers of R125. -/
theorem indexedField : Obligations.IndexedField := by
  intro x s v hd
  have hx : exec x s = indexDone v s := (exec_of_delivers hd).2
  rw [hx]
  refine ⟨?_, fun hgt => ?_, fun name hpos hle he => ?_, fun name value hpos hle he => ?_, fun h hge hh => ?_⟩
  · rintro rfl
    exact indexDone_zero s
  · exact indexDone_range (by omega) (lookup_none hgt)
  · exact indexDone_noValue (by omega) ((lookup_static hle s.dt).trans he)
  · exact indexDone_entry (by omega) ((lookup_static hle s.dt).trans he)
  · exact indexDone_entry (by omega) (by rw [lookup_dynamic hge, hh]; rfl)

/-! ## Size updates -/

theorem newSizeDone_exceeds {n : Nat} {s : State} (hn : s.cmax.toNat < n) :
    newSizeDone n s = .next (failed .hSizeExceeds s) := if_pos hn

theorem newSizeDone_of_le {n : Nat} {s : State} (hn : n ≤ s.cmax.toNat) :
    newSizeDone n s = .next { s with mts := BitVec.ofNat 32 n, dt := evict n s.dt, pass := some .rep } :=
  if_neg (Nat.not_lt.mpr hn)

/-- Settles O37: a size within CMAX fits the register, and the eviction is within it. -/
theorem sizeUpdate : Obligations.SizeUpdate := by
  intro x s v hd
  have hx : exec x s = newSizeDone v s := (exec_of_delivers hd).2
  refine ⟨fun hgt => hx.trans (newSizeDone_exceeds hgt), fun hle => ?_⟩
  refine ⟨hx.trans (newSizeDone_of_le hle), ?_, evict_le v s.dt⟩
  exact (BitVec.toNat_ofNat v 32).trans (Nat.mod_eq_of_lt (Nat.lt_of_le_of_lt hle s.cmax.isLt))

/-! ## The start of a pass -/

theorem hostDecodeBlock_closed {s : State} (hn : s.nc = true) (frag : Bytes) :
    hostDecodeBlock frag s = .refused .afterClose := if_pos hn

theorem hostDecodeBlock_starts {s : State} (hn : s.nc = false) (hp : s.pass = none) (frag : Bytes) :
    hostDecodeBlock frag s = .next (s.startPass frag) := by simp [hostDecodeBlock, hn, hp]

/-- Settles O41: the call is no `FEED`, so it is what the host's turn performs, whether `NC` is 0 or 1. -/
theorem decodeBlockStartsAPass : Obligations.DecodeBlockStartsAPass := by
  intro s frag ops hs
  refine ⟨fun hn ht => ?_, fun hn => ?_⟩
  · rw [step_hostOp hn ht hs rfl]
    exact hostDecodeBlock_starts (s := s.setHost ops) hn ht.1 frag
  · rw [step_closed hn, hostTurn_takes hs rfl]
    exact hostDecodeBlock_closed (s := s.setHost ops) hn frag

end Sys2Proof.Machine
end

section
/-! PROOF. A whole pass against the pseudocode of `DECODE_BLOCK` (42 R140 to R146). A representation is a read, of an
integer or of a literal, and what becomes of the value read. The reads agree by the lemmas of Laws/Pass, so it is left to
compare what becomes of the value, and then to follow the loop of R140. -/

namespace Sys2Proof.Machine

/-! ## The pseudocode of a representation as a read and its end -/

/-- `IDX` in the pseudocode, its index read (42 R142). -/
def indexEnd (i : Nat) (s : State) : Except (Cause × Nat) State :=
  if i = 0 then .error (.hIndexZero, s.pos)
  else match lookup i s.dt with
    | none => .error (.hIndexRange, s.pos)
    | some e => match e.value with
      | none => .error (.hNoValue, s.pos)
      | some v => .ok (s.clearSuok.emit (.ok ⟨e.name, v⟩))

/-- `DTSU` in the pseudocode, its size read (42 R146). -/
def newSizeEnd (n : Nat) (s : State) : Except (Cause × Nat) State :=
  if s.cmax.toNat < n then .error (.hSizeExceeds, s.pos) else .ok (evictTo n (s.setMts (BitVec.ofNat 32 n)))

/-- A literal in the pseudocode, its name and value read (42 R143 to R145). -/
def literalEnd (k : LitKind) (h : Header) (s : State) : Except (Cause × Nat) State :=
  if k = .linc then .ok ((insert h s.clearSuok).emit (.ok h)) else .ok (s.clearSuok.emit (.ok h))

/-- A read and what becomes of its value, with the cursor past what was read. -/
def readThen {α : Type} (r : Read α) (fin : α → State → Except (Cause × Nat) State) (s : State) :
    Except (Cause × Nat) State :=
  r.bind fun y => fin y.1 (s.setPos y.2)

theorem representation_idx {b : Byte} (h7 : b.getLsbD 7 = true) (s : State) :
    representation b s = readThen (readInt s.frag 7 b s.pos) indexEnd s := by
  rw [representation, if_pos h7]
  cases readInt s.frag 7 b s.pos <;> rfl

theorem representation_linc {b : Byte} (h7 : b.getLsbD 7 = false) (h6 : b.getLsbD 6 = true) (s : State) :
    representation b s = readThen (readLiteral s.cfg s.dt s.frag 6 b s.pos) (literalEnd .linc) s := by
  rw [representation, h7, h6]
  cases readLiteral s.cfg s.dt s.frag 6 b s.pos <;> rfl

theorem representation_dtsu_late {b : Byte} (h7 : b.getLsbD 7 = false) (h6 : b.getLsbD 6 = false)
    (h5 : b.getLsbD 5 = true) {s : State} (hs : s.suok = false) :
    representation b s = .error (.hSizeLate, s.pos) := by
  rw [representation, h7, h6, h5, hs]
  rfl

theorem representation_dtsu {b : Byte} (h7 : b.getLsbD 7 = false) (h6 : b.getLsbD 6 = false)
    (h5 : b.getLsbD 5 = true) {s : State} (hs : s.suok = true) :
    representation b s = readThen (readInt s.frag 5 b s.pos) newSizeEnd s := by
  rw [representation, h7, h6, h5, hs]
  cases readInt s.frag 5 b s.pos <;> rfl

theorem repKind_ne_linc (b : Byte) : repKind b ≠ .linc := by
  unfold repKind
  split <;> decide

theorem representation_unindexed {b : Byte} (h7 : b.getLsbD 7 = false) (h6 : b.getLsbD 6 = false)
    (h5 : b.getLsbD 5 = false) (s : State) :
    representation b s = readThen (readLiteral s.cfg s.dt s.frag 4 b s.pos) (literalEnd (repKind b)) s := by
  have hend : ∀ h t, literalEnd (repKind b) h t = .ok (t.clearSuok.emit (.ok h)) := fun _ _ =>
    if_neg (repKind_ne_linc b)
  rw [representation, h7, h6, h5]
  cases readLiteral s.cfg s.dt s.frag 4 b s.pos with
  | error e => rfl
  | ok r => exact (hend r.1 (s.setPos r.2)).symm

/-! ## What becomes of the value read -/

/-- From the last byte read, the machine and the pseudocode complete the representation in the same state, or raise the
same error at the cursor. -/
inductive SameEnd (s : State) : Result → Except (Cause × Nat) State → Prop
  | completes (t : State) (hn : t.nc = s.nc) (hp : t.pass = s.pass) (hf : t.frag = s.frag) (hpos : t.pos = s.pos) :
    SameEnd s (.next (t.setWant .rep)) (.ok t)
  | raises (k : Cause) : SameEnd s (.next (failed k s)) (.error (k, s.pos))

theorem sameEnd_index (i : Nat) (s : State) : SameEnd s (indexDone i s) (indexEnd i s) := by
  unfold indexDone indexEnd
  split
  · exact .raises _
  · cases lookup i s.dt with
    | none => exact .raises _
    | some e =>
      obtain ⟨name, value⟩ := e
      cases value with
      | none => exact .raises _
      | some v => exact .completes _ rfl rfl rfl rfl

theorem sameEnd_newSize (n : Nat) (s : State) : SameEnd s (newSizeDone n s) (newSizeEnd n s) := by
  unfold newSizeDone newSizeEnd
  split
  · exact .raises _
  · exact .completes _ rfl rfl rfl rfl

theorem sameEnd_literal (k : LitKind) (h : Header) (s : State) :
    SameEnd s (literalDone k h s) (literalEnd k h s) := by
  cases k <;> exact .completes _ rfl rfl rfl rfl

/-! ## A representation -/

/-- A pass stands between two representations. -/
structure BetweenReps (s : State) : Prop where
  nc : s.nc = false
  pass : s.pass = some .rep
  pos : s.pos ≤ s.frag.length

/-- From the answer `r`, given at the cursor of `s`, the machine comes to what the pseudocode says of the
representation, in no more steps than bytes are read, or than one more than are left where an error is raised. -/
def Reaches (s : State) (r : Result) : Except (Cause × Nat) State → Prop
  | .ok t => BetweenReps t ∧ t.frag = s.frag ∧ s.pos ≤ t.pos ∧ ∃ n, n ≤ t.pos - s.pos ∧ after n r = .next t
  | .error (k, p) => ∃ n, n ≤ s.frag.length - s.pos + 1 ∧ after n r = .next (failed k (s.setPos p))

theorem setWant_of_pass {s : State} {w : Want} (hp : s.pass = some w) : s.setWant w = s := by
  rw [State.setWant, ← hp]

/-- The representation ends at the cursor `p`, `n` steps after the answer `r`. -/
theorem SameEnd.reaches {s : State} {r r' : Result} {e : Except (Cause × Nat) State} {n p : Nat}
    (h : SameEnd (s.setPos p) r' e) (hs : BetweenReps s) (hle : s.pos ≤ p) (hp : p ≤ s.frag.length)
    (hn : n ≤ p - s.pos) (hr : after n r = r') : Reaches s r e := by
  cases h with
  | completes t hnc hpass hfrag hpos =>
    obtain rfl : t.pos = p := hpos
    have ht : t.pass = some .rep := hpass.trans hs.pass
    have hf : t.frag = s.frag := hfrag
    exact ⟨⟨hnc.trans hs.nc, ht, hf ▸ hp⟩, hf, hle, n, hn, by rw [hr, setWant_of_pass ht]⟩
  | raises k => exact ⟨n, by omega, hr⟩

/-- A read that the machine follows byte by byte, with ends that agree. -/
theorem reaches_readThen {α : Type} {s : State} {r : Result} {read : Read α} {done : α → State → Result}
    {fin : α → State → Except (Cause × Nat) State} (hs : BetweenReps s)
    (hok : ∀ x p, read = .ok (x, p) →
      s.pos ≤ p ∧ p ≤ s.frag.length ∧ ∃ n, n ≤ p - s.pos ∧ after n r = done x (s.setPos p))
    (herr : ∀ k p, read = .error (k, p) →
      ∃ n, n ≤ s.frag.length - s.pos + 1 ∧ after n r = .next (failed k (s.setPos p)))
    (hend : ∀ x t, SameEnd t (done x t) (fin x t)) : Reaches s r (readThen read fin s) := by
  cases hr : read with
  | error e => exact herr e.1 e.2 hr
  | ok y =>
    obtain ⟨hle, hp, n, hn, hdone⟩ := hok y.1 y.2 hr
    exact (hend y.1 (s.setPos y.2)).reaches hs hle hp hn hdone

theorem reaches_readInt {s : State} (hs : BetweenReps s) (u : IntUse) (n : Nat) (b : Byte)
    {fin : Nat → State → Except (Cause × Nat) State} (hend : ∀ i t, SameEnd t (intDone u i t) (fin i t)) :
    Reaches s (intPrefix n (b.toNat % 2 ^ n) u s) (readThen (readInt s.frag n b s.pos) fin s) := by
  obtain ⟨hok, herr⟩ := int_sim s hs.nc hs.pos u n b
  refine reaches_readThen hs hok (fun k p hr => ?_) hend
  obtain ⟨-, -, m, -, hm, he⟩ := herr k p hr
  exact ⟨m, hm, he⟩

theorem reaches_readLiteral {s : State} (hs : BetweenReps s) (k : LitKind) (n : Nat) (b : Byte) :
    Reaches s (intPrefix n (b.toNat % 2 ^ n) (.nameIndex k) s)
      (readThen (readLiteral s.cfg s.dt s.frag n b s.pos) (literalEnd k) s) := by
  obtain ⟨hok, herr⟩ := lit_sim s hs.nc hs.pos k n b
  exact reaches_readThen hs hok herr (sameEnd_literal k)

/-- A representation from its first byte, just read (42 R141): one case per row of the dispatch. -/
theorem reaches_representation {s : State} (hs : BetweenReps s) (b : Byte) :
    Reaches s (exec (decodeRep b) s) (representation b s) := by
  rw [exec_decodeRep b s hs.nc hs.pass]
  cases h7 : b.getLsbD 7 with
  | true =>
    rw [representation_idx h7]
    exact reaches_readInt hs .index 7 b sameEnd_index
  | false =>
    cases h6 : b.getLsbD 6 with
    | true =>
      rw [representation_linc h7 h6]
      exact reaches_readLiteral hs .linc 6 b
    | false =>
      cases h5 : b.getLsbD 5 with
      | true =>
        cases hsu : s.suok with
        | true =>
          rw [representation_dtsu h7 h6 h5 hsu]
          exact reaches_readInt hs .newSize 5 b sameEnd_newSize
        | false =>
          rw [representation_dtsu_late h7 h6 h5 hsu]
          exact ⟨0, Nat.zero_le _, rfl⟩
      | false =>
        rw [representation_unindexed h7 h6 h5]
        exact reaches_readLiteral hs (repKind b) 4 b

/-- The same from the step that reads the first byte. -/
theorem reaches_step {s : State} {b : Byte} (hs : BetweenReps s) (hb : s.frag[s.pos]? = some b) :
    Reaches (s.setPos (s.pos + 1)) (step s) (representation b (s.setPos (s.pos + 1))) := by
  have hlt : s.pos < s.frag.length := (List.getElem?_eq_some_iff.mp hb).1
  rw [step_unit hs.nc hs.pass hb]
  exact reaches_representation (s := s.setPos (s.pos + 1)) ⟨hs.nc, hs.pass, hlt⟩ b

/-! ## The loop -/

theorem passLoop_atEnd {s : State} (hl : s.frag.length ≤ s.pos) (fuel : Nat) : passLoop fuel s = s := by
  cases fuel with
  | zero => rfl
  | succ fuel => simp [passLoop, readByte, List.getElem?_eq_none hl]

theorem passLoop_ok {s t : State} {b : Byte} (hb : s.frag[s.pos]? = some b)
    (hr : representation b (s.setPos (s.pos + 1)) = .ok t) (fuel : Nat) : passLoop (fuel + 1) s = passLoop fuel t := by
  simp [passLoop, readByte, hb, hr]

theorem passLoop_error {s : State} {b : Byte} {k : Cause} {p : Nat} (hb : s.frag[s.pos]? = some b)
    (hr : representation b (s.setPos (s.pos + 1)) = .error (k, p)) (fuel : Nat) :
    (passLoop (fuel + 1) s).endPass = failed k (s.setPos p) := by
  simp only [passLoop, readByte, hb, hr]
  rfl

/-- The loop of R140 run unit by unit, with turns enough for the bytes left. -/
theorem runSteps_passLoop (fuel : Nat) {s : State} (hs : BetweenReps s) (hf : s.frag.length - s.pos ≤ fuel) :
    ∃ n, n ≤ s.frag.length - s.pos + 1 ∧ runSteps n s = .next (passLoop fuel s).endPass := by
  induction fuel generalizing s with
  | zero =>
    refine ⟨1, Nat.le_add_left 1 _, runSteps_one ?_⟩
    exact step_atEnd hs.nc hs.pass (by omega)
  | succ fuel ih =>
    cases hb : s.frag[s.pos]? with
    | none =>
      have hl : s.frag.length ≤ s.pos := List.getElem?_eq_none_iff.mp hb
      rw [passLoop_atEnd hl]
      exact ⟨1, Nat.le_add_left 1 _, runSteps_one (step_atEnd hs.nc hs.pass hl)⟩
    | some b =>
      have hlt : s.pos < s.frag.length := (List.getElem?_eq_some_iff.mp hb).1
      have hrep := reaches_step hs hb
      cases hr : representation b (s.setPos (s.pos + 1)) with
      | error e =>
        rw [hr] at hrep
        obtain ⟨n, hn, he⟩ := hrep
        simp only [State.setPos_frag, State.setPos_pos] at hn
        exact ⟨n + 1, by omega, by rw [runSteps_succ_eq, he, passLoop_error hb hr]; rfl⟩
      | ok t =>
        rw [hr] at hrep
        obtain ⟨ht, hfrag, hle, n, hn, he⟩ := hrep
        simp only [State.setPos_frag, State.setPos_pos] at hfrag hle hn
        have hend : t.pos ≤ s.frag.length := hfrag ▸ ht.pos
        obtain ⟨m, hm, hrun⟩ := ih ht (by rw [hfrag]; omega)
        rw [hfrag] at hm
        refine ⟨n + 1 + m, by omega, ?_⟩
        rw [runSteps_add (runSteps_succ_eq.trans he), hrun, passLoop_ok hb hr]

/-- Settles O43: the loop of R140 from the state in which a pass starts. -/
theorem passRunsThePseudocode : Obligations.PassRunsThePseudocode := fun s frag hn =>
  runSteps_passLoop frag.length (s := s.startPass frag) ⟨hn, rfl, Nat.zero_le _⟩ le_rfl

end Sys2Proof.Machine
end

section
/-! PROOF. The static table (43 R160 to R162). -/

namespace Sys2Proof.Machine

/-- Settles O32: indices 2 and 8 are `Lookup`'s static case (R125), and the rows' values are evaluated. -/
theorem staticTableRows : Obligations.StaticTableRows := by
  refine ⟨staticTable_length, ?_, ?_, by decide⟩
  · exact lookup_static (by decide) []
  · exact lookup_static (by decide) []

end Sys2Proof.Machine
end

section
/-! PROOF. `HUFF` is called for the octets of a Huffman string and nowhere else (44 R170, R171): every other operation of a
pass commutes with plugging another decoder in. -/

namespace Sys2Proof.Machine

/-- The same state with the decoder `f` for the parameter `HUFF` (00_scope R9). -/
def State.withHuff (f : HuffSel) (s : State) : State := { s with cfg := { s.cfg with huff := f } }

/-- The same answer with the decoder `f` for the parameter `HUFF`. -/
def answerWithHuff (f : HuffSel) : Result → Result
  | .next t => .next (t.withHuff f)
  | .fault r => .fault r
  | .refused r => .refused r

section
variable (f : HuffSel)

@[simp] theorem State.withHuff_frag (s : State) : (s.withHuff f).frag = s.frag := rfl
@[simp] theorem State.withHuff_pos (s : State) : (s.withHuff f).pos = s.pos := rfl
@[simp] theorem State.withHuff_suok (s : State) : (s.withHuff f).suok = s.suok := rfl
@[simp] theorem textOk_withHuff (s : State) (raw : Bytes) : textOk (s.withHuff f).cfg raw = textOk s.cfg raw := rfl

/-! ## The operands -/

theorem stringDone_withHuff (w : StrUse) (x : Bytes) (s : State) :
    stringDone w x (s.withHuff f) = answerWithHuff f (stringDone w x s) := by
  cases w with
  | name k => rfl
  | value k name => cases k <;> rfl

/-- A raw string is checked by `TextOk`, which is another parameter (41 R124). -/
theorem stringData_raw_withHuff (w : StrUse) (n : Nat) (s : State) :
    stringData false w n (s.withHuff f) = answerWithHuff f (stringData false w n s) := by
  rcases Nat.lt_or_ge (s.frag.length - s.pos) n with hl | hl
  · rw [stringData_truncated hl, stringData_truncated (s := s.withHuff f) hl]
    rfl
  · rw [stringData_raw hl, stringData_raw (s := s.withHuff f) hl]
    rw [textOk_withHuff, State.withHuff_frag, State.withHuff_pos]
    split
    · exact stringDone_withHuff f w _ (s.setPos (s.pos + n))
    · rfl

theorem indexDone_withHuff (i : Nat) (s : State) :
    indexDone i (s.withHuff f) = answerWithHuff f (indexDone i s) := by
  rcases Nat.eq_zero_or_pos i with rfl | hi
  · rfl
  · cases he : lookup i s.dt with
    | none =>
      rw [indexDone_range hi.ne' he, indexDone_range (s := s.withHuff f) hi.ne' he]
      rfl
    | some e =>
      obtain ⟨name, _ | value⟩ := e
      · rw [indexDone_noValue hi.ne' he, indexDone_noValue (s := s.withHuff f) hi.ne' he]
        rfl
      · rw [indexDone_entry hi.ne' he, indexDone_entry (s := s.withHuff f) hi.ne' he]
        rfl

theorem nameIndexDone_withHuff (k : LitKind) (i : Nat) (s : State) :
    nameIndexDone k i (s.withHuff f) = answerWithHuff f (nameIndexDone k i s) := by
  rcases Nat.eq_zero_or_pos i with rfl | hi
  · rfl
  · cases he : lookup i s.dt with
    | none =>
      rw [nameIndexDone_range hi.ne' he, nameIndexDone_range (s := s.withHuff f) hi.ne' he]
      rfl
    | some e =>
      rw [nameIndexDone_entry hi.ne' he, nameIndexDone_entry (s := s.withHuff f) hi.ne' he]
      rfl

theorem newSizeDone_withHuff (n : Nat) (s : State) :
    newSizeDone n (s.withHuff f) = answerWithHuff f (newSizeDone n s) := by
  rcases Nat.lt_or_ge s.cmax.toNat n with hn | hn
  · rw [newSizeDone_exceeds hn, newSizeDone_exceeds (s := s.withHuff f) hn]
    rfl
  · rw [newSizeDone_of_le hn, newSizeDone_of_le (s := s.withHuff f) hn]
    rfl

/-- Only the length of a Huffman string leads to `HUFF`. -/
theorem intDone_withHuff {u : IntUse} (hu : ∀ w, u ≠ .strLen true w) (i : Nat) (s : State) :
    intDone u i (s.withHuff f) = answerWithHuff f (intDone u i s) := by
  cases u with
  | index => exact indexDone_withHuff f i s
  | nameIndex k => exact nameIndexDone_withHuff f k i s
  | newSize => exact newSizeDone_withHuff f i s
  | strLen coded w =>
    cases coded with
    | true => exact absurd rfl (hu w)
    | false => exact stringData_raw_withHuff f w i s

theorem intPrefix_withHuff {u : IntUse} (hu : ∀ w, u ≠ .strLen true w) (n p : Nat) (s : State) :
    intPrefix n p u (s.withHuff f) = answerWithHuff f (intPrefix n p u s) := by
  unfold intPrefix
  split
  · exact intDone_withHuff f hu p s
  · rfl

theorem intEnd_withHuff {u : IntUse} (hu : ∀ w, u ≠ .strLen true w) (i : Nat) (s : State) :
    intEnd u i (s.withHuff f) = answerWithHuff f (intEnd u i s) := by
  unfold intEnd
  split
  · rfl
  · exact intDone_withHuff f hu i s

/-! ## The units -/

theorem atRep_withHuff {s t : State} {k k' : Result} (hk : k' = answerWithHuff f k) (h : atRep s k = .next t) :
    atRep (s.withHuff f) k' = .next (t.withHuff f) := by
  obtain ⟨hn, hp, he⟩ := atRep_next h
  rw [atRep_eq (s := s.withHuff f) hn hp, hk, he]
  rfl

theorem atStr_withHuff {s t : State} {k k' : StrUse → Result} (hk : ∀ w, k' w = answerWithHuff f (k w))
    (h : atStr s k = .next t) : atStr (s.withHuff f) k' = .next (t.withHuff f) := by
  obtain ⟨hn, w, hp, he⟩ := atStr_next h
  rw [atStr_eq (s := s.withHuff f) hn hp, hk, he]
  rfl

theorem atCont_withHuff {s t : State} {k k' : IntUse → Nat → Nat → Result}
    (hk : ∀ u acc m, s.pass = some (.cont u acc m) → k' u acc m = answerWithHuff f (k u acc m))
    (h : atCont s k = .next t) : atCont (s.withHuff f) k' = .next (t.withHuff f) := by
  obtain ⟨hn, u, acc, m, hp, he⟩ := atCont_next h
  rw [atCont_eq (s := s.withHuff f) hn hp, hk u acc m hp, he]
  rfl

theorem atHeader_withHuff {s t : State} {k k' : Result} (hk : k' = answerWithHuff f k)
    (h : atHeader s k = .next t) : atHeader (s.withHuff f) k' = .next (t.withHuff f) := by
  obtain ⟨hn, hp, hph, ha, he⟩ := atHeader_next h
  rw [atHeader_eq (s := s.withHuff f) hn hp hph ha, hk, he]
  rfl

theorem execDtsu_withHuff {s t : State} {n : BitVec 5} (h : execDtsu n s = .next t) :
    execDtsu n (s.withHuff f) = .next (t.withHuff f) := by
  refine atRep_withHuff f ?_ h
  rw [State.withHuff_suok]
  split
  · exact intPrefix_withHuff f (by nofun) 5 n.toNat s
  · rfl

theorem acceptHeader_withHuff (h : FrameHeader) (s : State) :
    acceptHeader h (s.withHuff f) = (acceptHeader h s).withHuff f := by
  unfold acceptHeader
  split <;> rfl

end

/-! ## The statement -/

/-- Settles O29: the units that read no Huffman string commute with plugging another decoder in. -/
theorem onlyHuffmanStringsDependOnHuff : Obligations.OnlyHuffmanStringsDependOnHuff := by
  intro x s t f hx hp h
  change exec x (s.withHuff f) = .next (t.withHuff f)
  cases x with
  | idx | lincN | lincI | lnoidxN | lnoidxI | lneverN | lneverI =>
    exact atRep_withHuff f (intPrefix_withHuff f (by nofun) _ _ s) h
  | dtsu n => exact execDtsu_withHuff f h
  | strRaw l => exact atStr_withHuff f (fun w => intPrefix_withHuff f (by nofun) 7 l.toNat s) h
  | strHuf l => exact absurd rfl (hx l)
  | intCont g => exact atCont_withHuff f (fun _ _ _ _ => rfl) h
  | intLast g =>
    refine atCont_withHuff f (fun u acc m hc => intEnd_withHuff f (fun w hu => ?_) _ s) h
    exact hp w acc m (hu ▸ hc)
  | frameHdr len type flags r sid =>
    exact atHeader_withHuff f (congrArg Host.Outcome.next (acceptHeader_withHuff f _ s)) h

end Sys2Proof.Machine
end

section
/-! PROOF. No code of the standard Huffman table starts another (44 R172), so the loop of R173 finds a code's symbol at its
last bit and no symbol before. The table is a canonical code: sorted by length, each code is above all that the codes before
it start, and so only neighbours have to be compared. -/

namespace Sys2Proof.Machine

/-! ## The table -/

/-- The codes of two rows differ in the bits both of them have, so neither starts the other. -/
@[reducible] def CodesApart (r r' : Nat × Nat) : Prop := r.1 / 2 ^ (r.2 - r'.2) ≠ r'.1 / 2 ^ (r'.2 - r.2)

/-- A code has at least one bit and at most 30, and its value fits in them. -/
theorem huffTable_codeFits : ∀ r ∈ huffTable, 0 < r.2 ∧ r.2 < 31 ∧ r.1 < 2 ^ r.2 := by decide +kernel

/-- The code of row `r'` is no shorter than the code of row `r`, and above every code of that length which starts with the
code of row `r`. -/
@[reducible] def CodePrecedes (r r' : Nat × Nat) : Prop := r.2 ≤ r'.2 ∧ (r.1 + 1) * 2 ^ (r'.2 - r.2) ≤ r'.1

/-- The rows of R172 by the length of the code, then by symbol. -/
def canonicalRows : List (Nat × Nat) := (List.range 31).flatMap fun len => huffTable.filter (·.2 == len)

theorem canonicalRows_isChain : canonicalRows.IsChain CodePrecedes := by decide +kernel

theorem CodePrecedes.trans {a b c : Nat × Nat} (hab : CodePrecedes a b) (hbc : CodePrecedes b c) :
    CodePrecedes a c := by
  obtain ⟨hl, hv⟩ := hab
  obtain ⟨hl', hv'⟩ := hbc
  refine ⟨hl.trans hl', ?_⟩
  calc (a.1 + 1) * 2 ^ (c.2 - a.2)
      = (a.1 + 1) * 2 ^ (b.2 - a.2) * 2 ^ (c.2 - b.2) := by
        rw [Nat.mul_assoc, ← pow_add, show b.2 - a.2 + (c.2 - b.2) = c.2 - a.2 by omega]
    _ ≤ (b.1 + 1) * 2 ^ (c.2 - b.2) := Nat.mul_le_mul_right _ (by omega)
    _ ≤ c.1 := hv'

theorem CodePrecedes.codesApart {r r' : Nat × Nat} (h : CodePrecedes r r') : CodesApart r r' := by
  obtain ⟨hl, hv⟩ := h
  have : r.1 + 1 ≤ r'.1 / 2 ^ (r'.2 - r.2) := (Nat.le_div_iff_mul_le (by positivity)).mpr hv
  rw [CodesApart, Nat.sub_eq_zero_of_le hl, pow_zero, Nat.div_one]
  omega

theorem canonicalRows_pairwise : canonicalRows.Pairwise CodesApart :=
  have : Trans CodePrecedes CodePrecedes CodePrecedes := ⟨CodePrecedes.trans⟩
  canonicalRows_isChain.pairwise.imp CodePrecedes.codesApart

/-- Rows whose codes have one length stand in the same order in both lists. -/
theorem filter_sublist_canonicalRows {len : Nat} (hl : len < 31) :
    (huffTable.filter (·.2 == len)).Sublist canonicalRows := by
  rw [canonicalRows, List.flatMap]
  exact List.sublist_flatten_of_mem (List.mem_map_of_mem (List.mem_range.mpr hl))

/-- The list by lengths has every row: its code's length is at most 30. -/
theorem mem_canonicalRows {r : Nat × Nat} (hr : r ∈ huffTable) : r ∈ canonicalRows :=
  have ⟨_, hlen, _⟩ := huffTable_codeFits r hr
  (filter_sublist_canonicalRows hlen).subset (List.mem_filter.mpr ⟨hr, beq_self_eq_true r.2⟩)

theorem codesApart_of_mem {r r' : Nat × Nat} (hr : r ∈ huffTable) (hr' : r' ∈ huffTable) (hne : r ≠ r') :
    CodesApart r r' :=
  have : Std.Symm CodesApart := ⟨fun _ _ h => h.symm⟩
  canonicalRows_pairwise.forall (mem_canonicalRows hr) (mem_canonicalRows hr') hne

theorem canonicalRows_nodup : canonicalRows.Nodup :=
  canonicalRows_pairwise.imp fun {r r'} (h : CodesApart r r') (he : r = r') => h (he ▸ rfl)

/-- Two places of the table hold different rows: a row twice in it would be twice among the rows of its length. -/
theorem huffTable_nodup : huffTable.Nodup := by
  refine List.nodup_iff_sublist.mpr fun r hr => ?_
  obtain ⟨-, hlen, -⟩ := huffTable_codeFits r (hr.subset List.mem_cons_self)
  have htwice : [r, r].Sublist (huffTable.filter (·.2 == r.2)) := by
    simpa using hr.filter (·.2 == r.2)
  exact List.nodup_iff_sublist.mp canonicalRows_nodup r (htwice.trans (filter_sublist_canonicalRows hlen))

/-- The first bits of a row's code are no row's code. -/
theorem codePrefix_not_mem {code len d : Nat} (hr : (code, len) ∈ huffTable) (hd : 0 < d) (hl : d < len) :
    (code / 2 ^ d, len - d) ∉ huffTable := by
  intro hp
  have hne : (code / 2 ^ d, len - d) ≠ (code, len) := fun h => by
    have := congrArg Prod.snd h
    dsimp only at this
    omega
  apply codesApart_of_mem hp hr hne
  dsimp only
  rw [show len - d - len = 0 by omega, show len - (len - d) = d by omega, pow_zero, Nat.div_one]

/-! ## The search -/

/-- The decoder's search for a symbol is the library's search for a row. -/
theorem huffSymbol_eq_findIdx? (v n : Nat) (rows : List (Nat × Nat)) (s : Nat) :
    huffSymbol v n rows s = (rows.findIdx? (· == (v, n))).map (· + s) := by
  induction rows generalizing s with
  | nil => rfl
  | cons r rows ih =>
    obtain ⟨code, len⟩ := r
    by_cases hr : len = n ∧ code = v
    · simp [huffSymbol, List.findIdx?_cons, hr]
    · have hne : ¬ (code = v ∧ len = n) := fun h => hr h.symm
      simp [huffSymbol, List.findIdx?_cons, hr, hne, ih, Function.comp_def, Nat.add_comm, Nat.add_left_comm]

theorem huffSymbol_of_not_mem {v n : Nat} (h : (v, n) ∉ huffTable) : huffSymbol v n huffTable 0 = none := by
  rw [huffSymbol_eq_findIdx?, List.findIdx?_eq_none_iff.mpr]
  · rfl
  · rintro r hr
    exact beq_eq_false_iff_ne.mpr fun he => h (he ▸ hr)

theorem huffSymbol_of_getElem? {symbol code len : Nat} (h : huffTable[symbol]? = some (code, len)) :
    huffSymbol code len huffTable 0 = some symbol := by
  obtain ⟨hs, hrow⟩ := List.getElem?_eq_some_iff.mp h
  have hfind : huffTable.findIdx? (· == (code, len)) = some symbol := by
    refine List.findIdx?_eq_some_iff_getElem.mpr ⟨hs, beq_iff_eq.mpr hrow, fun j hj he => ?_⟩
    have hsame : huffTable[j] = huffTable[symbol] := (beq_iff_eq.mp he).trans hrow.symm
    exact hj.ne (huffTable_nodup.getElem_inj_iff.mp hsame)
  rw [huffSymbol_eq_findIdx?, hfind]
  rfl

/-! ## The bits of a code -/

theorem codeBits_succ (code d : Nat) : codeBits code (d + 1) = code.testBit d :: codeBits code d := by
  simp only [codeBits, List.range_succ_eq_map, List.map_cons, List.map_map]
  congr 1
  refine List.map_congr_left fun k _ => ?_
  simp only [Function.comp_apply, Nat.succ_eq_add_one, show d + 1 - 1 - (k + 1) = d - 1 - k by omega]

/-- Reading a code's next bit takes the accumulator from all but its last `d + 1` bits to all but its last `d`. -/
theorem two_mul_div_add_testBit (code d : Nat) :
    2 * (code / 2 ^ (d + 1)) + (code.testBit d).toNat = code / 2 ^ d := by
  rw [Nat.toNat_testBit, pow_succ, ← Nat.div_div_eq_div_mul, Nat.div_add_mod]

theorem huffBits_cons_none {v v' n n' : Nat} {x : Bool} (hv : 2 * v + x.toNat = v') (hn : n + 1 = n')
    (h : huffSymbol v' n' huffTable 0 = none) (bits : List Bool) (out : Bytes) :
    huffBits (x :: bits) v n out = huffBits bits v' n' out := by
  subst hv hn
  rw [huffBits, h]

theorem huffBits_cons_some {v v' n n' symbol : Nat} {x : Bool} (hv : 2 * v + x.toNat = v') (hn : n + 1 = n')
    (h : huffSymbol v' n' huffTable 0 = some symbol) (bits : List Bool) (out : Bytes) :
    huffBits (x :: bits) v n out =
      if symbol = huffEos then none else huffBits bits 0 0 (BitVec.ofNat 8 symbol :: out) := by
  subst hv hn
  rw [huffBits, h]

/-- From any bit of a row's code on, the loop of 44 R173 comes to the row's symbol at the last bit. -/
theorem huffBits_codeSuffix {symbol code len : Nat} (h : huffTable[symbol]? = some (code, len)) (rest : List Bool)
    (out : Bytes) (d : Nat) (hd : d < len) :
    huffBits (codeBits code (d + 1) ++ rest) (code / 2 ^ (d + 1)) (len - (d + 1)) out =
      if symbol = huffEos then none else huffBits rest 0 0 (BitVec.ofNat 8 symbol :: out) := by
  induction d with
  | zero =>
    have hv := (two_mul_div_add_testBit code 0).trans (Nat.div_one code)
    exact huffBits_cons_some hv (by omega) (huffSymbol_of_getElem? h) rest out
  | succ d ih =>
    have hnone := huffSymbol_of_not_mem (codePrefix_not_mem (List.mem_of_getElem? h) d.succ_pos hd)
    rw [codeBits_succ, List.cons_append, huffBits_cons_none (two_mul_div_add_testBit code (d + 1)) (by omega) hnone]
    exact ih (by omega)

theorem huffBits_code {symbol code len : Nat} (h : huffTable[symbol]? = some (code, len)) (rest : List Bool)
    (out : Bytes) :
    huffBits (codeBits code len ++ rest) 0 0 out =
      if symbol = huffEos then none else huffBits rest 0 0 (BitVec.ofNat 8 symbol :: out) := by
  obtain ⟨hpos, -, hfits⟩ := huffTable_codeFits _ (List.mem_of_getElem? h)
  dsimp only at hpos hfits
  obtain ⟨d, rfl⟩ : ∃ d, len = d + 1 := ⟨len - 1, by omega⟩
  have hsuffix := huffBits_codeSuffix h rest out d d.lt_succ_self
  rwa [Nat.div_eq_of_lt hfits, Nat.sub_self] at hsuffix

/-- Settles O30: a row's bits come to the row's symbol, which is output unless it is EOS. -/
theorem huffmanCodesDecode : Obligations.HuffmanCodesDecode := by
  intro symbol code len rest out h
  rw [huffBits_code h]
  exact ⟨fun hs => if_neg (Nat.ne_of_lt hs), fun he => if_pos he⟩

end Sys2Proof.Machine
end

section
/-! PROOF. The host's writes (46 R181 to R185) and `RESET` (46 R187, 70 R230). -/

namespace Sys2Proof.Machine

/-! ## The writes, the connection open -/

theorem hostSetMaxf_open {s : State} (hn : s.nc = false) (v : Word) : hostSetMaxf v s = .next { s with maxf := v } := by
  simp [hostSetMaxf, hn, State.setMaxf]

theorem hostSetCmax_open {s : State} (hn : s.nc = false) (v : Word) : hostSetCmax v s = .next { s with cmax := v } := by
  simp [hostSetCmax, hn, State.setCmax]

theorem hostAck_open {s : State} (hn : s.nc = false) : hostAck s = .next { s with ackDue := false } := by
  simp [hostAck, hn, State.acked]

/-- Settles O53: at the host's turn the step is the write, on the state without the call. `SET_NC` writes whatever `NC`
is. -/
theorem hostWrites : Obligations.HostWrites := by
  intro s ops hn ht
  refine ⟨fun _ => step_feed hn ht, fun v hs => ?maxf, fun v hs => ?cmax, fun hs => ?nc,
    fun hs => ?ack⟩
  case maxf => exact (step_hostOp hn ht hs rfl).trans (hostSetMaxf_open (s := s.setHost ops) hn v)
  case cmax => exact (step_hostOp hn ht hs rfl).trans (hostSetCmax_open (s := s.setHost ops) hn v)
  case nc => exact step_hostOp hn ht hs rfl
  case ack => exact (step_hostOp hn ht hs rfl).trans (hostAck_open (s := s.setHost ops) hn)

/-! ## `RESET` -/

/-- With `NC = 1`, or when the block waits for the host, a step is the host's turn (60 R219). -/
theorem step_hostTurn {s : State} (h : s.nc = true ∨ HostsTurn s) : step s = hostTurn s := by
  cases hn : s.nc with
  | true => exact step_closed hn
  | false => exact step_hostsTurn hn (h.resolve_left (by simp [hn]))

/-- Settles O8: the host's turn takes `RESET`, which never stalls; the fields written out are those of
`State.resetWith` (10_state R40). -/
theorem resetOperation : Obligations.ResetOperation := by
  intro s ops hs hturn
  calc step s = hostTurn s := step_hostTurn hturn
    _ = hostReset (s.setHost ops) := hostTurn_takes hs rfl
    _ = .next ((State.resetWith s.cfg).setHost ops) := rfl

end Sys2Proof.Machine
end

section
/-! PROOF. What is refused (60 R220), and what `NC = 1` freezes (10_state R25, 60 R219). -/

namespace Sys2Proof.Machine

/-! ## What does not answer a next state -/

/-- With the invariant and no pass in progress, the block waits for the host or the sequencer's step is enabled: a pending
header is there in phase FB and does not fail (10_state R23). -/
theorem State.Inv.hostsTurn_or_stepEnabled {s : State} (hi : s.Inv) (hn : s.nc = false) (hp : s.pass = none) :
    HostsTurn s ∨ s.ackDue = false ∧ stepEnabled s = true := by
  cases ha : s.ackDue with
  | true => exact .inl ⟨hp, .inl ha⟩
  | false =>
    cases hf : s.phase with
    | fh =>
      rcases Nat.lt_or_ge s.ib.length 9 with hl | hl
      · exact .inl ⟨hp, .inr (.inl ⟨hf, hl⟩)⟩
      · exact .inr ⟨rfl, stepEnabled_iff.mpr ⟨hn, .inl ⟨hf, hl⟩⟩⟩
    | fb =>
      have hph : s.ph ≠ none := fun hph => by simp [hi.pending.mp hph] at hf
      obtain ⟨h, hph⟩ := Option.ne_none_iff_exists'.mp hph
      rcases Nat.lt_or_ge s.ib.length h.length.toNat with hl | hl
      · exact .inl ⟨hp, .inr (.inr ⟨h, hf, hph, hi.pendingSound h hph, hl⟩)⟩
      · exact .inr ⟨rfl, stepEnabled_iff.mpr ⟨hn, .inr ⟨h, hf, hph, hl⟩⟩⟩

/-- A step in a pass answers a next state: every byte is a unit of the place it is read in, and at the end of the fragment
the pass is over or `H_TRUNC` is raised. -/
theorem step_pass_total {s : State} {w : Want} (hn : s.nc = false) (hp : s.pass = some w) : ∃ t, step s = .next t := by
  cases hb : s.frag[s.pos]? with
  | some b =>
    have hslot : (decodeOctet w.ctx b).slot = .octet w.ctx := (decodeOctet_spec w.ctx b).2.1
    obtain ⟨t, ht, -⟩ := exec_pass_total (s := { s with pos := s.pos + 1 }) hn hp hslot
    exact ⟨t, (step_unit hn hp hb).trans ht⟩
  | none =>
    rw [step_atEnd hn hp (List.getElem?_eq_none_iff.mp hb)]
    split
    · exact ⟨_, rfl⟩
    · exact ⟨_, rfl⟩

/-- With the invariant, a step that is not the host's turn answers a next state. -/
theorem State.Inv.step_next_or_hostTurn {s : State} (hi : s.Inv) :
    (∃ t, step s = .next t) ∨ (s.nc = true ∨ s.pass = none) ∧ step s = hostTurn s := by
  cases hn : s.nc with
  | true => exact .inr ⟨.inl rfl, step_closed hn⟩
  | false =>
    cases hp : s.pass with
    | some w => exact .inl (step_pass_total hn hp)
    | none =>
      rcases hi.hostsTurn_or_stepEnabled hn hp with ht | ⟨ha, he⟩
      · exact .inr ⟨.inr rfl, step_hostsTurn hn ht⟩
      · exact .inl ⟨_, stepIsTheSequencerStep s hi hp ha he⟩

/-- Settles O11: only the host's turn can answer anything but a next state, and its refusals are those of R220. -/
theorem onlyTheRefusalsOfR220 : Obligations.OnlyTheRefusalsOfR220 := by
  intro s hi
  rcases hi.step_next_or_hostTurn with ⟨t, ht⟩ | ⟨hp, ht⟩
  · rw [ht]
    exact ⟨nofun, nofun⟩
  · rw [ht]
    exact ⟨fun _ => hostTurn_not_fault, fun _ => hostTurn_refused hp⟩

/-! ## The connection closed -/

/-- With `NC = 1` no operation stalls: the chunk of a `FEED` is discarded and needs no room (log 8). -/
theorem stalled_closed {s : State} (hn : s.nc = true) (op : HostOp) : stalled op s = false := by
  unfold stalled
  split
  · simp [hn]
  · rfl

theorem State.close_of_closed {s : State} (hn : s.nc = true) : s.close = s := by
  rw [State.close, ← hn]

/-- With `NC = 1` an operation other than `RESET` that is not refused changes nothing (10_state R25). -/
theorem hostOp_closed {op : HostOp} {s t : State} (hn : s.nc = true) (hr : op ≠ .reset)
    (h : hostOp op s = .next t) : t = s := by
  have unchanged : hostOp op s = .next s → t = s := fun hs => by
    rw [hs] at h
    cases h
    rfl
  cases op with
  | reset => exact absurd rfl hr
  | feed chunk | setMaxf v | setCmax v | ack => exact unchanged (congrArg Host.Outcome.next (if_pos hn))
  | fhParse => exact unchanged (if_pos hn)
  | setNc => exact unchanged (congrArg Host.Outcome.next (State.close_of_closed hn))
  | decodeBlock frag => cases (hostDecodeBlock_closed hn frag).symm.trans h
  | fbParse hd =>
    cases hh : hd.failure with
    | true => cases (hostFbParse_refused hh).symm.trans h
    | false => exact unchanged (by simp [hostOp, hostFbParse, hn, hh])

/-- Settles O14: with `NC = 1` a step takes the host's next operation, if there is one, and the operation changes
nothing. -/
theorem closeFreezesTheState : Obligations.CloseFreezesTheState := by
  intro s t hn h hr
  rw [step_closed hn] at h
  cases hs : s.host with
  | nil =>
    rw [hostTurn_rests hs] at h
    cases h
    rw [List.tail_nil, ← hs]
  | cons op ops =>
    have hop : op ≠ .reset := fun he => hr (by rw [hs, he]; rfl)
    rw [hostTurn_takes hs (stalled_closed hn op)] at h
    exact hostOp_closed (s := s.setHost ops) hn hop h

end Sys2Proof.Machine
end

section
/-! PROOF. Errors of the operands: an integer above the bound, a late size update, a Huffman string that `HUFF` rejects; and
what becomes of one it accepts (41 R122, R124, 42 R146, 44 R170, R171, 60 R205, R210, R212). -/

namespace Sys2Proof.Machine

/-- Settles O20: past its guard `INT.LAST` tests the bound before the value is used. -/
theorem integerOverflowIsAnError : Obligations.IntegerOverflowIsAnError := fun _ _ _ _ _ hn hp hv =>
  (atCont_eq hn hp _).trans (if_pos hv)

/-- Settles O38: past its guard `DTSU` tests `SUOK` before its operand is looked at. -/
theorem lateSizeUpdate : Obligations.LateSizeUpdate := fun _ _ hn hp hs =>
  (atRep_eq hn hp _).trans (if_neg (ne_true_of_eq_false hs))

/-! ## Huffman strings -/

/-- The octets of a Huffman string that `HUFF` rejects have been taken when `H_HUFFMAN` is raised (60 R212). -/
theorem stringData_huffman_rejected {n : Nat} {s : State} (hl : n ≤ s.frag.length - s.pos)
    (hy : huff s.cfg ((s.frag.drop s.pos).take n) = none) (w : StrUse) :
    stringData true w n s = .next (failed .hHuffman (s.setPos (s.pos + n))) := by
  simp [stringData, takeBytes_of_le hl, hy, raise_eq]

/-- What `HUFF` answers is the string, and the text check is not applied to it (41 R124). -/
theorem stringData_huffman_decoded {n : Nat} {s : State} {y : Bytes} (hl : n ≤ s.frag.length - s.pos)
    (hy : huff s.cfg ((s.frag.drop s.pos).take n) = some y) (w : StrUse) :
    stringData true w n s = stringDone w y (s.setPos (s.pos + n)) := by
  simp [stringData, takeBytes_of_le hl, hy]

/-- Settles O28: the unit hands its length to the string, whose octets are taken before `HUFF` is asked. -/
theorem huffmanStringIsDelegated : Obligations.HuffmanStringIsDelegated := by
  intro x s w v hd
  have hx : exec x s = stringData true w v s := (exec_of_delivers hd).2
  refine ⟨fun hl => hx.trans (stringData_truncated hl _ _),
    fun hl hy => hx.trans (stringData_huffman_rejected hl hy w), fun y hl hy => ?_⟩
  have hdone : exec x s = stringDone w y (s.setPos (s.pos + v)) := hx.trans (stringData_huffman_decoded hl hy w)
  refine ⟨?name, ?unindexed, ?indexed⟩
  case name =>
    rintro k rfl
    exact hdone
  case unindexed =>
    rintro k name rfl hk
    exact hdone.trans (literalDone_unindexed hk _ _)
  case indexed =>
    rintro name rfl
    exact hdone.trans (literalDone_linc _ _)

end Sys2Proof.Machine
end

section
/-! PROOF. Termination of a pass (42 R140, 70 R245, R246 a). A step in a pass either ends it in one of the two outcomes, or
moves the cursor forward inside the fragment; so there are at most as many steps as bytes before the one that ends it. -/

namespace Sys2Proof.Machine

/-- A pass over `frag` is in progress, with no error in OUT. -/
structure PassInProgress (frag : Bytes) (s : State) : Prop where
  nc : s.nc = false
  pass : s.pass ≠ none
  fragment : s.frag = frag
  pos : s.pos ≤ frag.length
  out : ∃ fields : List Header, s.out = fields.map Item.ok

/-- The pass over `frag` is over, at the end of the fragment or by an error (70 R246 a). -/
def PassOver (frag : Bytes) (t : State) : Prop :=
  t.pass = none ∧ t.frag = frag ∧
    ((t.nc = false ∧ t.pos = frag.length ∧ ∃ hs : List Header, t.out = hs.map Item.ok) ∨
     (t.nc = true ∧ ∃ (hs : List Header) (k : Cause), t.out = hs.map Item.ok ++ [.err k]))

section
variable {frag : Bytes} {s t : State}

/-! ## Units of a pass -/

/-- An error ends the pass, wherever the cursor is. -/
theorem PassInProgress.over_of_failed (hs : PassInProgress frag s) (k : Cause) (p : Nat) :
    PassOver frag (failed k { s with pos := p }) := by
  obtain ⟨fields, hout⟩ := hs.out
  exact ⟨rfl, hs.fragment, .inr ⟨rfl, fields, k, congrArg (· ++ [Item.err k]) hout⟩⟩

/-- A completed field keeps OUT free of errors. -/
theorem PassInProgress.out_append_ok (hs : PassInProgress frag s) (h : Header) :
    ∃ fields : List Header, s.out ++ [.ok h] = fields.map Item.ok := by
  obtain ⟨fields, hout⟩ := hs.out
  exact ⟨fields ++ [h], by simp [hout]⟩

/-- A unit of a pass ends the pass by an error, or the pass goes on with the cursor not moved back. -/
theorem PassStep.over_or_inProgress (h : PassStep s t) (hs : PassInProgress frag s) :
    PassOver frag t ∨ PassInProgress frag t ∧ s.pos ≤ t.pos := by
  have hfrag : t.frag = frag := by rw [h.frame]; exact hs.fragment
  obtain ⟨hle, hend⟩ : s.pos ≤ t.pos ∧ t.pos ≤ frag.length := hfrag ▸ h.cursor (hs.fragment ▸ hs.pos)
  have goesOn : t.nc = false → t.pass ≠ none → (∃ fields : List Header, t.out = fields.map Item.ok) →
      PassOver frag t ∨ PassInProgress frag t ∧ s.pos ≤ t.pos := fun hn hp hout =>
    .inr ⟨⟨hn, hp, hfrag, hend, hout⟩, hle⟩
  cases h with
  | goesOn n w hn ht | resizes n hn ht => subst ht; exact goesOn hs.nc nofun hs.out
  | yields n hd hn ht | inserts n hd hn ht => subst ht; exact goesOn hs.nc nofun (hs.out_append_ok hd)
  | fails n k hn ht => subst ht; exact .inl (hs.over_of_failed k _)

/-! ## Steps in a pass -/

/-- With no byte left, a step ends the pass (41 R120, 42 R140). -/
theorem PassInProgress.step_over (hs : PassInProgress frag s) (hl : frag.length ≤ s.pos) :
    ∃ t, step s = .next t ∧ PassOver frag t := by
  obtain ⟨w, hw⟩ := Option.ne_none_iff_exists'.mp hs.pass
  rw [step_atEnd hs.nc hw (by rw [hs.fragment]; exact hl)]
  split
  · exact ⟨_, rfl, rfl, hs.fragment, .inl ⟨hs.nc, le_antisymm hs.pos hl, hs.out⟩⟩
  · exact ⟨_, rfl, hs.over_of_failed .hTrunc s.pos⟩

/-- A step of a pass ends it, or takes a byte of the fragment. -/
theorem PassInProgress.step_over_or_advances (hs : PassInProgress frag s) :
    ∃ t, step s = .next t ∧ (PassOver frag t ∨ PassInProgress frag t ∧ s.pos < t.pos) := by
  rcases Nat.lt_or_ge s.pos frag.length with hlt | hge
  · obtain ⟨w, hw⟩ := Option.ne_none_iff_exists'.mp hs.pass
    have hb : s.frag[s.pos]? = some frag[s.pos] := by rw [hs.fragment]; exact List.getElem?_eq_getElem hlt
    have taken : PassInProgress frag { s with pos := s.pos + 1 } := ⟨hs.nc, hs.pass, hs.fragment, hlt, hs.out⟩
    obtain ⟨t, ht, hstep⟩ := exec_pass_total taken.nc hw (decodeOctet_spec w.ctx frag[s.pos]).2.1
    exact ⟨t, (step_unit hs.nc hw hb).trans ht, hstep.over_or_inProgress taken⟩
  · obtain ⟨t, ht, hover⟩ := hs.step_over hge
    exact ⟨t, ht, .inl hover⟩

/-- A pass in progress is over within one step more than bytes are left: each step that does not end it takes one. -/
theorem PassInProgress.ends {s : State} (hs : PassInProgress frag s) :
    ∃ n t, n ≤ frag.length - s.pos + 1 ∧ runSteps n s = .next t ∧ PassOver frag t := by
  obtain ⟨t, ht, hover | ⟨ht', hmoved⟩⟩ := hs.step_over_or_advances
  · exact ⟨1, t, Nat.le_add_left 1 _, runSteps_one ht, hover⟩
  · have hle : t.pos ≤ frag.length := ht'.pos
    obtain ⟨n, u, hn, hu, hover⟩ := ht'.ends
    exact ⟨n + 1, u, by omega, (runSteps_next ht n).trans hu, hover⟩
termination_by frag.length - s.pos

end

/-- Settles O42: a pass starts with all the bytes of the fragment left. -/
theorem everyPassEnds : Obligations.EveryPassEnds := fun s frag hn =>
  PassInProgress.ends (s := s.startPass frag) ⟨hn, nofun, rfl, Nat.zero_le _, [], rfl⟩

end Sys2Proof.Machine
end
